-- ==== Sys2Proof/Word.lean ====
section
/-! DEFINITION. The data the block moves: the byte, the input ports of one clock edge (R60), what the environment
hands the block, the dispatch class of a PUSH (R61) and the six state names of the receiver (R17). -/

namespace Sys2Proof

/-- One unsigned 8-bit byte: every datum the block moves (R5, R8). -/
abbrev Byte := BitVec 8

/-- The input ports the block samples at one clock edge (R60): the action word `A[3:0] = rst, push, ck_clr, ck_add`
and the two operand ports.  `clk` is the step itself; `raddr` is read by `Machine.outputs`. -/
structure Ports where
  /-- `A[3:0]`: bit 3 `rst`, bit 2 `push`, bit 1 `ck_clr`, bit 0 `ck_add`. -/
  strobes : BitVec 4
  /-- Operand of `PUSH`; ignored when `push = 0`. -/
  din : Byte
  /-- Operand of `CK.ADD`; ignored when `ck_add = 0`. -/
  ckDin : Byte
  deriving DecidableEq, Repr

/-- What the environment of R10 hands the block: one clock edge at the ports, or what one read of the Transport brought,
a chunk of one or more bytes.  A chunk takes one step for each of its bytes, since one `PUSH` is one step (R7): see
`Machine.stepInput`.  DESIGN CHOICE: see notes/assumptions/4.md and notes/assumptions/5.md. -/
inductive Input where
  | edge (ports : Ports)
  | chunk (first : Byte) (later : List Byte)
  deriving DecidableEq, Repr

/-- The dispatch class `S` of R61, a value `0..6`; the value 7 does not occur. -/
inductive DispatchClass where
  | expectHeader0
  | expectHeader1
  | expectCommand
  | expectAlgo
  | expectLength
  | bodyContent
  | bodyChecksum
  deriving DecidableEq, Repr

/-- The six state names of R17, functions of `IDX`. -/
inductive StateName where
  | ExpectHeader0
  | ExpectHeader1
  | ExpectCommand
  | ExpectAlgo
  | ExpectLength
  | AccumulateBody
  deriving DecidableEq, Repr

end Sys2Proof
end

