-- ==== Sys2Proof/Config.lean ====
section
/-! DEFINITION. The parameters of R5, all constants of this hardware, and the one free value of the model: what a byte
of `BUF` holds that no PUSH has written since power-on (R27, U1). -/

namespace Sys2Proof.Config

/-- First header byte (R5, R48). -/
abbrev HDR0 : Byte := 0x55

/-- Second header byte (R5, R49). -/
abbrev HDR1 : Byte := 0xAA

/-- Frame buffer capacity in bytes (R5). -/
abbrev CAP : Nat := 128

/-- Bytes of a frame before `content` (R5). -/
abbrev PREFIX : Nat := 5

/-- `PREFIX` and the one checksum byte (R5). -/
abbrev OVERHEAD : Nat := 6

/-- Largest `content_length` FA accepts, `CAP - OVERHEAD` (R5, decision D4; notes/assumptions/9.md). -/
abbrev MAXLEN : Nat := 122

/-- Size of the smallest frame (R5, R56). -/
abbrev MINFRAME : Nat := 6

/-- Size of the largest accepted frame (R5, R56). -/
abbrev MAXFRAME : Nat := 128

/-- FREE VALUE.  What byte `i` of `BUF` holds at power-on (R26, R27, U1: any value, neither zero nor any fixed
constant).  It has no body, so nothing can be proved of it; see notes/assumptions/1.md. -/
opaque powerOnByte : Nat → Byte

end Sys2Proof.Config
end

