-- ==== Sys2Proof/Syntax.lean ====
section
/-! DEFINITION. The rows of spec/opcode_table.json as one inductive: the four actions of R7, the eleven transitions of
PUSH of R62 and the twenty FRAME.command rows of R50 and R66.  A row's fixed bits are its constructor, its free bits are
the constructor's arguments. -/

namespace Sys2Proof

/-- One constructor for each row of the opcode table. -/
inductive Instr where
  -- group ACTION (R60): what the environment does in one step
  | reset
  | push (b : Byte)
  | ckClr
  | ckAdd (b : Byte)
  -- group PUSH (R62): what a PUSH of the byte b resolves to
  | h0Hit
  | h0Miss (b : Byte)
  | h1Hit
  | h1Miss (b : Byte)
  | cmd (b : Byte)
  | alg (b : Byte)
  | lenOk (b : Byte)
  | lenOvf (b : Byte)
  | body (b : Byte)
  | chkOk (b : Byte)
  | chkBad (b : Byte)
  -- group FRAME.command (R50): the five-byte prefix of a frame with a listed command byte
  | knock (algorithmId contentLength : Byte)
  | getResult (algorithmId contentLength : Byte)
  | getAlgoParam (algorithmId contentLength : Byte)
  | setAlgorithm (algorithmId contentLength : Byte)
  | setNameById (algorithmId contentLength : Byte)
  | returnArgs (algorithmId contentLength : Byte)
  | returnInfo (algorithmId contentLength : Byte)
  | returnBlock (algorithmId contentLength : Byte)
  | returnArrow (algorithmId contentLength : Byte)
  | actionTakePhoto (algorithmId contentLength : Byte)
  | actionTakeScreenshot (algorithmId contentLength : Byte)
  | actionLearn (algorithmId contentLength : Byte)
  | actionForget (algorithmId contentLength : Byte)
  | actionDrawRect (algorithmId contentLength : Byte)
  | actionClearRect (algorithmId contentLength : Byte)
  | actionDrawText (algorithmId contentLength : Byte)
  | actionClearText (algorithmId contentLength : Byte)
  | actionPlayMusic (algorithmId contentLength : Byte)
  | actionLearnBlock (algorithmId contentLength : Byte)
  | actionDrawUniqueRect (algorithmId contentLength : Byte)
  deriving DecidableEq, Repr

end Sys2Proof
end

