-- ==== Sys2Proof/WellFormed.lean ====
section
/-! DEFINITION. Which terms of `Instr` stand for words of the opcode table: the conditions on the operand byte that
the table's mask cannot express (R62).  The condition of CHK.OK and CHK.BAD is on the state, not on the word; it is in
their meanings. -/

namespace Sys2Proof

/-- The operand conditions of R62: rows 2, 4, 7 and 8 bound their byte; every other row admits every byte. -/
def Instr.wf : Instr → Bool
  | .reset => true
  | .push _ => true
  | .ckClr => true
  | .ckAdd _ => true
  | .h0Hit => true
  | .h0Miss b => decide (b ≠ Config.HDR0)
  | .h1Hit => true
  | .h1Miss b => decide (b ≠ Config.HDR1)
  | .cmd _ => true
  | .alg _ => true
  | .lenOk b => decide (b.toNat + Config.OVERHEAD ≤ Config.CAP)
  | .lenOvf b => decide (Config.CAP < b.toNat + Config.OVERHEAD)
  | .body _ => true
  | .chkOk _ => true
  | .chkBad _ => true
  | .knock _ _ => true
  | .getResult _ _ => true
  | .getAlgoParam _ _ => true
  | .setAlgorithm _ _ => true
  | .setNameById _ _ => true
  | .returnArgs _ _ => true
  | .returnInfo _ _ => true
  | .returnBlock _ _ => true
  | .returnArrow _ _ => true
  | .actionTakePhoto _ _ => true
  | .actionTakeScreenshot _ _ => true
  | .actionLearn _ _ => true
  | .actionForget _ _ => true
  | .actionDrawRect _ _ => true
  | .actionClearRect _ _ => true
  | .actionDrawText _ _ => true
  | .actionClearText _ _ => true
  | .actionPlayMusic _ _ => true
  | .actionLearnBlock _ _ => true
  | .actionDrawUniqueRect _ _ => true

end Sys2Proof
end

