-- ==== Sys2Proof/Decode.lean ====
section
/-! DEFINITION. The three encodings of opcode_table.json (R66): the action word of R60, the dispatch word of R61 and
R62, the frame prefix of R47 and R50.  First the decoder, total on any bytes and rejecting by name, then the encoder,
then the decoder by table numbering that the host uses. -/

namespace Sys2Proof

/-- The three groups of rows of the opcode table (R66). -/
inductive Format where
  /-- Three bytes: `A` in bits 3:0, then `din`, then `ck_din`. -/
  | action
  /-- Three bytes: the dispatch word `W[10:0]`, low byte first, then the checksum the dispatcher compares `b` with. -/
  | transition
  /-- Five bytes: the frame prefix in arrival order. -/
  | frame
  deriving DecidableEq, Repr

/-- How many bytes a word of the format has. -/
def Format.bytes : Format → Nat
  | .action => 3
  | .transition => 3
  | .frame => 5

/-- Why a word stands for no row of the table. -/
inductive DecodeError where
  /-- Not as many bytes as the format has. -/
  | wrongLength
  /-- Bits above `A[3:0]` are set. -/
  | wideActionWord
  /-- Bits above `W[10:0]` are set. -/
  | wideDispatchWord
  /-- `S = 7`, which does not occur (R61, R63). -/
  | unusedClass
  /-- The first two bytes are not `55 AA` (R47). -/
  | notAFramePrefix
  /-- A command byte without a row of its own; FA stores it like any other (R50, R63). -/
  | unlistedCommand
  deriving DecidableEq, Repr

/-! ## Actions (R60) -/

/-- The actions one clock edge performs (R60, D16): `RESET` overrides everything; otherwise a `PUSH` and one CK action
may happen together; `A = 0` performs nothing.  The masks are those of the opcode table. -/
def actionsOf (p : Ports) : List Instr :=
  if p.strobes &&& 0x8#4 = 0x8#4 then [.reset]
  else
    (if p.strobes &&& 0xC#4 = 0x4#4 then [.push p.din] else []) ++
      (if p.strobes &&& 0xA#4 = 0x2#4 then [.ckClr]
       else if p.strobes &&& 0xB#4 = 0x1#4 then [.ckAdd p.ckDin] else [])

/-! ## Transitions (R61, R62) -/

/-- The 3-bit code of a dispatch class (R61). -/
def DispatchClass.code : DispatchClass → BitVec 3
  | .expectHeader0 => 0
  | .expectHeader1 => 1
  | .expectCommand => 2
  | .expectAlgo => 3
  | .expectLength => 4
  | .bodyContent => 5
  | .bodyChecksum => 6

/-- The class of a 3-bit code; 7 is unused (R61, R63). -/
def classOfCode : Nat → Option DispatchClass
  | 0 => some .expectHeader0
  | 1 => some .expectHeader1
  | 2 => some .expectCommand
  | 3 => some .expectAlgo
  | 4 => some .expectLength
  | 5 => some .bodyContent
  | 6 => some .bodyChecksum
  | _ => none

/-- The dispatch table of R62: the row that fires for class `c` and byte `b`, where `sum` is the checksum
`checksum(BUF[0..BUF[4]+5))` that rows 10 and 11 compare `b` with. -/
def selectTransition (c : DispatchClass) (b sum : Byte) : Instr :=
  match c with
  | .expectHeader0 => if b = Config.HDR0 then .h0Hit else .h0Miss b
  | .expectHeader1 => if b = Config.HDR1 then .h1Hit else .h1Miss b
  | .expectCommand => .cmd b
  | .expectAlgo => .alg b
  | .expectLength => if b.toNat + Config.OVERHEAD ≤ Config.CAP then .lenOk b else .lenOvf b
  | .bodyContent => .body b
  | .bodyChecksum => if b = sum then .chkOk b else .chkBad b

/-! ## Frame prefixes (R47, R50) -/

/-- The command bytes of R50, with the row each stands for. -/
def commandTable : List (Byte × (Byte → Byte → Instr)) :=
  [(0x00, .knock), (0x01, .getResult), (0x02, .getAlgoParam), (0x0A, .setAlgorithm), (0x0B, .setNameById)] ++
  [(0x1A, .returnArgs), (0x1B, .returnInfo), (0x1C, .returnBlock), (0x1D, .returnArrow)] ++
  [(0x20, .actionTakePhoto), (0x21, .actionTakeScreenshot), (0x22, .actionLearn), (0x23, .actionForget)] ++
  [(0x26, .actionDrawRect), (0x27, .actionClearRect), (0x28, .actionDrawText), (0x29, .actionClearText)] ++
  [(0x2A, .actionPlayMusic), (0x2C, .actionLearnBlock), (0x2D, .actionDrawUniqueRect)]

/-- The row of a command byte, if R50 lists it. -/
def commandInstr (c algorithmId contentLength : Byte) : Option Instr :=
  (commandTable.find? (fun row => row.1 == c)).map (fun row => row.2 algorithmId contentLength)

/-! ## The decoder -/

/-- Three bytes as an action word with its operands. -/
def decodeAction : List Byte → Except DecodeError (List Instr)
  | [a, din, ckDin] =>
    if a.toNat < 16 then .ok (actionsOf ⟨a.setWidth 4, din, ckDin⟩) else .error .wideActionWord
  | _ => .error .wrongLength

/-- Three bytes as a dispatch word and the checksum it is compared with. -/
def decodeTransition : List Byte → Except DecodeError (List Instr)
  | [b, s, sum] =>
    if s.toNat < 8 then
      match classOfCode s.toNat with
      | some c => .ok [selectTransition c b sum]
      | none => .error .unusedClass
    else .error .wideDispatchWord
  | _ => .error .wrongLength

/-- Five bytes as a frame prefix (R47). -/
def decodeFrame : List Byte → Except DecodeError (List Instr)
  | [h0, h1, c, a, n] =>
    if h0 = Config.HDR0 ∧ h1 = Config.HDR1 then
      match commandInstr c a n with
      | some i => .ok [i]
      | none => .error .unlistedCommand
    else .error .notAFramePrefix
  | _ => .error .wrongLength

/-- The decoder: the instructions a word of a format stands for.  Only an action word may stand for none (`A = 0`) or
for two (a `PUSH` and a CK action). -/
def decode (f : Format) (bytes : List Byte) : Except DecodeError (List Instr) :=
  match f with
  | .action => decodeAction bytes
  | .transition => decodeTransition bytes
  | .frame => decodeFrame bytes

/-! ## The inputs of a step -/

/-- The input a read of the Transport makes; an empty read hands over nothing. -/
def Input.ofBytes : List Byte → List Input
  | [] => []
  | b :: bs => [.chunk b bs]

/-- What the block runs for one input in one step: the actions of an edge (R60); for a chunk that is the prefix of a frame
with a listed command that row, for any other chunk the `PUSH` of its first byte (R7, R97). -/
def decodeInput : Input → List Instr
  | .edge p => actionsOf p
  | .chunk b bs =>
    match decodeFrame (b :: bs) with
    | .ok is => is
    | .error _ => [.push b]

/-- What is left of an input after that step: the later bytes of a chunk.  A FRAME.command row lines up its own later bytes
(`Machine.State.receivePrefix`). -/
def Input.remainder : Input → List Input
  | .edge _ => []
  | .chunk b bs =>
    match decodeFrame (b :: bs) with
    | .ok _ => []
    | .error _ => Input.ofBytes bs

/-! ## The encoder -/

/-- The five bytes of a frame prefix (R47). -/
def prefixBytes (c algorithmId contentLength : Byte) : List Byte :=
  [Config.HDR0, Config.HDR1, c, algorithmId, contentLength]

/-- The words of an instruction, from R60, R62 and R47. For CHK.BAD, any third byte other than `b` will do. -/
def encode : Instr → Format × List Byte
  | .reset => (.action, [0x08, 0x00, 0x00])
  | .push b => (.action, [0x04, b, 0x00])
  | .ckClr => (.action, [0x02, 0x00, 0x00])
  | .ckAdd b => (.action, [0x01, 0x00, b])
  | .h0Hit => (.transition, [0x55, 0x00, 0x00])
  | .h0Miss b => (.transition, [b, 0x00, 0x00])
  | .h1Hit => (.transition, [0xAA, 0x01, 0x00])
  | .h1Miss b => (.transition, [b, 0x01, 0x00])
  | .cmd b => (.transition, [b, 0x02, 0x00])
  | .alg b => (.transition, [b, 0x03, 0x00])
  | .lenOk b => (.transition, [b, 0x04, 0x00])
  | .lenOvf b => (.transition, [b, 0x04, 0x00])
  | .body b => (.transition, [b, 0x05, 0x00])
  | .chkOk b => (.transition, [b, 0x06, b])
  | .chkBad b => (.transition, [b, 0x06, ~~~b])
  | .knock a n => (.frame, prefixBytes 0x00 a n)
  | .getResult a n => (.frame, prefixBytes 0x01 a n)
  | .getAlgoParam a n => (.frame, prefixBytes 0x02 a n)
  | .setAlgorithm a n => (.frame, prefixBytes 0x0A a n)
  | .setNameById a n => (.frame, prefixBytes 0x0B a n)
  | .returnArgs a n => (.frame, prefixBytes 0x1A a n)
  | .returnInfo a n => (.frame, prefixBytes 0x1B a n)
  | .returnBlock a n => (.frame, prefixBytes 0x1C a n)
  | .returnArrow a n => (.frame, prefixBytes 0x1D a n)
  | .actionTakePhoto a n => (.frame, prefixBytes 0x20 a n)
  | .actionTakeScreenshot a n => (.frame, prefixBytes 0x21 a n)
  | .actionLearn a n => (.frame, prefixBytes 0x22 a n)
  | .actionForget a n => (.frame, prefixBytes 0x23 a n)
  | .actionDrawRect a n => (.frame, prefixBytes 0x26 a n)
  | .actionClearRect a n => (.frame, prefixBytes 0x27 a n)
  | .actionDrawText a n => (.frame, prefixBytes 0x28 a n)
  | .actionClearText a n => (.frame, prefixBytes 0x29 a n)
  | .actionPlayMusic a n => (.frame, prefixBytes 0x2A a n)
  | .actionLearnBlock a n => (.frame, prefixBytes 0x2C a n)
  | .actionDrawUniqueRect a n => (.frame, prefixBytes 0x2D a n)

/-! ## The numbering of opcode_table.json -/

/-- Byte `k` of a number, byte 0 the least significant. -/
def byteOf (w k : Nat) : Byte := BitVec.ofNat 8 (w >>> (8 * k))

/-- A 40-bit row as opcode_table.json numbers it: `header0` in bits 39:32 down to `content_length` in bits 7:0. -/
def frameBytesTable (w : Nat) : List Byte := [byteOf w 4, byteOf w 3, byteOf w 2, byteOf w 1, byteOf w 0]

/-- A 40-bit row as R47 numbers it: byte `k` of the frame in bits `8k+7` down to `8k`. -/
def frameBytesArrival (w : Nat) : List Byte := [byteOf w 0, byteOf w 1, byteOf w 2, byteOf w 3, byteOf w 4]

/-- The prefix bytes a 40-bit number stands for: the table's numbering if its two top bytes are the header, otherwise
R47's (notes/assumptions/12.md: where both fit they give the same bytes). -/
def frameBytesOf (w : Nat) : List Byte :=
  if byteOf w 4 = Config.HDR0 ∧ byteOf w 3 = Config.HDR1 then frameBytesTable w else frameBytesArrival w

/-- Which group a row of `nbits` bits belongs to: 4-bit rows in one byte, 11-bit rows in two, 40-bit rows in five. -/
def formatOfWidth (nbits : Nat) : Option Format :=
  if nbits ≤ 8 then some .action
  else if nbits ≤ 16 then some .transition
  else if nbits ≤ 40 then some .frame
  else none

/-- The bytes of a row's word in its format; operand bytes the table gives no bits are the bits above `nbits`. -/
def wordBytes (f : Format) (w : Nat) : List Byte :=
  match f with
  | .action => [byteOf w 0, byteOf w 1, byteOf w 2]
  | .transition => [byteOf w 0, byteOf w 1, byteOf w 2]
  | .frame => frameBytesOf w

/-- The first instruction the decoder reads from a word of the table. -/
def decodeTableWord (nbits w : Nat) : Option Instr :=
  match formatOfWidth nbits with
  | some f =>
    match decode f (wordBytes f w) with
    | .ok is => is.head?
    | .error _ => none
  | none => none

end Sys2Proof
end

