-- ==== Sys2Proof/Machine/State.lean ====
section
/-! DEFINITION. The state of one instance of the block (R14, R15): the five pieces of architectural state, and beside
them the environment's two lists, the inputs still to come and the observation of the run so far. -/

namespace Sys2Proof.Machine

/-- The frame buffer as the bytes written since power-on, by strictly rising index (R18, R33).  An index that is not
listed reads as the free value `Config.powerOnByte` (R27; notes/assumptions/1.md). -/
abbrev Memory := List Host.Cell

/-- The six status codes of R113. -/
inductive Status where
  | PENDING
  | FRAME
  | E_HDR0
  | E_HDR1
  | E_LEN
  | E_CHK
  deriving DecidableEq, Repr

/-- What one `PUSH` lets the environment observe (R11, R98): the byte pushed, the status produced and, with status
`FRAME`, the delivered frame value as a copy. -/
structure Event where
  byte : Byte
  status : Status
  delivered : Option (List Byte)
  deriving DecidableEq, Repr

/-- The block (first five fields: all the state R15 gives it) and, as the model's own fields, the environment's inputs
and the observation of the run (notes/assumptions/3.md and notes/assumptions/6.md). -/
structure State where
  /-- `IDX`, the cursor (R16). -/
  idx : BitVec 7
  /-- `BUF`, the frame buffer (R18). -/
  buf : Memory
  /-- `FC`, the frame-complete flag (R20). -/
  fc : Bool
  /-- `ST`, the status register (R21). -/
  st : Status
  /-- `ACC`, the accumulator of CK (R22). -/
  acc : Byte
  /-- Model's own: the environment's inputs of the coming steps, first one first. -/
  inputs : List Input
  /-- Model's own: one event for each `PUSH` so far, newest first. -/
  trace : List Event
  deriving DecidableEq, Repr

/-- The spec gives the block no fault: no action halts it and no state is stuck (R108), so this type has no
constructor. -/
inductive Fault where
  deriving DecidableEq, Repr

/-- Why an instruction is refused.  No `step` answers with a refusal. -/
inductive Refusal where
  /-- Raised by `exec` for an instruction that has no meaning yet.  Safe. -/
  | notModelled (mnemonic : String)
  /-- Raised by the meaning of a PUSH transition row in a state, or for a byte, for which the row does not fire (R62: "A
  row fires when (W & mask) = match and its extra condition, if it has one, holds").  The block itself performs a
  transition only when it fires, so no step raises it.  Safe (notes/assumptions/7.md). -/
  | transitionDoesNotFire (row : String)
  deriving DecidableEq, Repr

/-- The state right after the power-on `RESET` (R26, R134): nothing of `BUF` is specified, no input is lined up and
nothing has been observed. -/
def State.reset : State where
  idx := 0
  buf := []
  fc := false
  st := .PENDING
  acc := 0
  inputs := []
  trace := []

end Sys2Proof.Machine
end

