-- ==== Sys2Proof/Machine/Codec.lean ====
section
/-! DEFINITION. The pure part of checksum_codec: the checksum function (R67 to R72), well-formed frames and the frame
constructor (R58, R59), the fields of a frame (R99). -/

namespace Sys2Proof.Machine

/-- `checksum(s)`: the sum of the bytes over the naturals, reduced modulo 256 (R67, R68). -/
def checksum (s : List Byte) : Byte := BitVec.ofNat 8 (s.map BitVec.toNat).sum

/-- `verify(s, c)` (R71). -/
def verify (s : List Byte) (c : Byte) : Bool := decide (checksum s = c)

/-- `frame_ok(F)` (R71): the last byte is the checksum of the bytes before it; false of the empty sequence. -/
def frameOk (F : List Byte) : Bool := decide (F.getLast? = some (checksum F.dropLast))

/-- `append_checksum(s)` (R72). -/
def appendChecksum (s : List Byte) : List Byte := s ++ [checksum s]

/-- `WF(F)`, a well-formed frame (R58). -/
def wellFormedFrame (F : List Byte) : Bool :=
  decide (Config.MINFRAME ≤ F.length) && decide (F.getD 0 0 = Config.HDR0) && decide (F.getD 1 0 = Config.HDR1) &&
    decide (F.length = (F.getD 4 0).toNat + Config.OVERHEAD) && frameOk F

/-- `AWF(F)`, an acceptable well-formed frame (R58). -/
def acceptableFrame (F : List Byte) : Bool := wellFormedFrame F && decide ((F.getD 4 0).toNat ≤ Config.MAXLEN)

/-- `mk_frame(c, a, s)` (R59); meant for `|s| <= 255`. -/
def mkFrame (c a : Byte) (s : List Byte) : List Byte :=
  appendChecksum (prefixBytes c a (BitVec.ofNat 8 s.length) ++ s)

/-- `V.command` (R99). -/
def frameCommand (V : List Byte) : Option Byte := V[2]?

/-- `V.algorithm_id` (R99). -/
def frameAlgorithmId (V : List Byte) : Option Byte := V[3]?

/-- `V.content_length` (R99). -/
def frameContentLength (V : List Byte) : Option Byte := V[4]?

/-- `V.content` (R99): the bytes after the five-byte prefix and before the checksum. -/
def frameContent (V : List Byte) : List Byte := (V.drop Config.PREFIX).dropLast

/-- `V.checksum` (R99). -/
def frameChecksum (V : List Byte) : Option Byte := V.getLast?

end Sys2Proof.Machine
end

