-- ==== Sys2Proof/Machine/Ops.lean ====
section
/-! DEFINITION. The named operations on the buffer, the registers, the environment's lists, and `raise E` of R120,
which stands where taking an exception stands on a processor. -/

namespace Sys2Proof.Machine

/-! ## The buffer as a memory (R33, R34) -/

/-- The byte written at index `a` since power-on, if there is one. -/
def Memory.lookup : Memory → Nat → Option Byte
  | [], _ => none
  | (b, v) :: m, a => if b = a then some v else Memory.lookup m a

/-- What index `a` reads as: the byte written there, or the free power-on value (R27). -/
def Memory.read (m : Memory) (a : Nat) : Byte := (Memory.lookup m a).getD (Config.powerOnByte a)

/-- `BUF[a] <- v` (R9), keeping the indices strictly rising. -/
def Memory.write : Memory → Nat → Byte → Memory
  | [], a, v => [(a, v)]
  | (b, w) :: m, a, v =>
    if a < b then (a, v) :: (b, w) :: m
    else if a = b then (a, v) :: m
    else (b, w) :: Memory.write m a v

/-- The canonical form: indices strictly rising and inside the buffer (R33).  What an unlisted index reads as is a free
value, so no entry can be known to equal it and a written byte stays listed. -/
abbrev Memory.wf (m : Memory) : Prop :=
  m.Pairwise (fun x y => x.1 < y.1) ∧ ∀ cell ∈ m, cell.1 < Config.CAP

/-- `BUF[i]` (R9). -/
def State.byteAt (s : State) (i : Nat) : Byte := Memory.read s.buf i

/-- `BUF[lo..hi)` (R8, R69), cut at the end of the buffer: no index of 128 or more is ever read (R41; it matters only in
states no run reaches, notes/assumptions/10.md). -/
def State.bytes (s : State) (lo hi : Nat) : List Byte :=
  (List.range' lo (min hi Config.CAP - lo)).map s.byteAt

/-- `BUF[i] <- b` (R9). -/
def State.store (s : State) (i : Nat) (b : Byte) : State := { s with buf := Memory.write s.buf i b }

/-! ## The cursor and the accumulator -/

/-- `IDX <- k` (R9, R16). -/
def State.setIdx (s : State) (k : BitVec 7) : State := { s with idx := k }

/-- `IDX <- IDX + 1` (R90).  Seven bits: in every state a run reaches the sum is at most 127 (R28 V1, V4). -/
def State.advanceIdx (s : State) : State := { s with idx := s.idx + 1 }

/-- `ACC <- v` (R9, R22). -/
def State.setAcc (s : State) (v : Byte) : State := { s with acc := v }

/-! ## Errors (R120) -/

/-- `raise E` (R9, R120): all an error does.  `E` is one of `E_HDR0`, `E_HDR1`, `E_LEN`, `E_CHK`.  No state is saved, no
mode changes, control goes nowhere, and there is no return operation (R122). -/
def State.raiseError (s : State) (e : Status) : State := { s with st := e, fc := false, idx := 0 }

/-! ## The environment's lists -/

/-- The next step takes `i`. -/
def State.pushInput (s : State) (i : Input) : State := { s with inputs := i :: s.inputs }

/-- The coming steps take `is`, before what was lined up already. -/
def State.lineUp (s : State) (is : List Input) : State := { s with inputs := is ++ s.inputs }

/-- What is left after the first input is taken. -/
def State.popInput (s : State) : State := { s with inputs := s.inputs.tail }

/-- The bytes pushed so far, newest first. -/
def pushedBytes (t : List Event) : List Byte := t.map Event.byte

/-- The statuses of the run, in order (R11, R97). -/
def State.statuses (s : State) : List Status := (s.trace.map Event.status).reverse

/-- The frame output of the run: the frame values delivered, in order (R98). -/
def State.frameOutput (s : State) : List (List Byte) := (s.trace.filterMap Event.delivered).reverse

end Sys2Proof.Machine
end

