-- ==== Sys2Proof/Machine/Operands.lean ====
section
/-! DEFINITION. What a transition is selected from: the views `LEN` and `POS` (R19), the state name (R17), the dispatch
class (R61), the checksum the body is compared with (R62 rows 10 and 11), the frame value a completion delivers (R98), the
output ports (R60). -/

namespace Sys2Proof.Machine

/-- `LEN`, the view `BUF[4]` (R19). -/
def State.len (s : State) : Byte := s.byteAt 4

/-- `POS`, the view `LEN + 5`, a natural number (R19). -/
def State.pos (s : State) : Nat := s.len.toNat + Config.PREFIX

/-- The state name of R17. -/
def State.stateName (s : State) : StateName :=
  match s.idx.toNat with
  | 0 => .ExpectHeader0
  | 1 => .ExpectHeader1
  | 2 => .ExpectCommand
  | 3 => .ExpectAlgo
  | 4 => .ExpectLength
  | _ => .AccumulateBody

/-- The dispatch class `S` of R61. -/
def State.dispatchClass (s : State) : DispatchClass :=
  match s.idx.toNat with
  | 0 => .expectHeader0
  | 1 => .expectHeader1
  | 2 => .expectCommand
  | 3 => .expectAlgo
  | 4 => .expectLength
  | k => if k < s.pos then .bodyContent else .bodyChecksum

/-- `checksum(BUF[0..POS))`, which a byte at the checksum position is compared with (R91, R92). -/
def State.bodySum (s : State) : Byte := checksum (s.bytes 0 s.pos)

/-- `BUF[0..POS]`, both ends included: the value a completed frame delivers (R98). -/
def State.frameValue (s : State) : List Byte := s.bytes 0 (s.pos + 1)

/-- The output ports of R60. -/
structure Outputs where
  fc : Bool
  st : BitVec 3
  idx : BitVec 7
  rdata : Byte
  acc : Byte
  deriving DecidableEq, Repr

/-- The 3-bit code of a status (R113). -/
def Status.code : Status → BitVec 3
  | .PENDING => 0
  | .FRAME => 1
  | .E_HDR0 => 2
  | .E_HDR1 => 3
  | .E_LEN => 4
  | .E_CHK => 5

/-- What the environment reads between two actions with `raddr` on the read address port (R23, R60); it is a function of
the state and changes nothing (R39). -/
def State.outputs (s : State) (raddr : BitVec 7) : Outputs where
  fc := s.fc
  st := s.st.code
  idx := s.idx
  rdata := s.byteAt raddr.toNat
  acc := s.acc

end Sys2Proof.Machine
end

