-- ==== Sys2Proof/Machine/Flags.lean ====
section
/-! DEFINITION. How a PUSH sets `FC` and `ST` (R9: `accept`, `complete`; `raise E` is `State.raiseError`), and the
observation it leaves. -/

namespace Sys2Proof.Machine

/-- `accept` (R9): the byte was taken into the frame in progress; no frame yet. -/
def State.accept (s : State) : State := { s with st := .PENDING, fc := false }

/-- `complete` (R9). -/
def State.complete (s : State) : State := { s with st := .FRAME, fc := true, idx := 0 }

/-- The observation of the `PUSH` of `b` that led to `s` (R11, R98): its status, and with status `FRAME` the frame value,
read after the action. -/
def State.observe (s : State) (b : Byte) : State :=
  { s with trace := ⟨b, s.st, if s.st = .FRAME then some s.frameValue else none⟩ :: s.trace }

end Sys2Proof.Machine
end

