-- ==== Sys2Proof/Machine/ChecksumCodec.lean ====
section
/-! DEFINITION. The serial form of checksum_codec: CK.CLR, CK.ADD (R74, R75) and the pseudo-operation CK.SUM (R65). -/

namespace Sys2Proof.Machine

/-- `ACC <- (ACC + b) mod 256` (R75); eight bits wrap modulo 256. -/
def State.addAcc (s : State) (b : Byte) : State := s.setAcc (s.acc + b)

/-- CK.CLR (R74). -/
def execCkClr (s : State) : Host.Outcome State Fault Refusal := .next (s.setAcc 0)

/-- CK.ADD b (R75). -/
def execCkAdd (b : Byte) (s : State) : Host.Outcome State Fault Refusal := .next (s.addAcc b)

/-- CK.SUM b0 ... bk (R65): `CK.CLR` and then one `CK.ADD` for each byte. -/
def State.ckSum (s : State) (bs : List Byte) : State := bs.foldl State.addAcc (s.setAcc 0)

end Sys2Proof.Machine
end

