-- ==== Sys2Proof/Machine/FrameAssembler.lean ====
section
/-! DEFINITION. frame_assembler: the eleven transitions (R82 to R92), what they do as functions of the state, PUSH as the
reference listing of R94, FEED (R97), and the meanings of the twelve rows. -/

namespace Sys2Proof.Machine

/-! ## What each transition does -/

/-- H0.HIT (R82). -/
def State.h0Hit (s : State) : State := ((s.store 0 Config.HDR0).setIdx 1).accept.observe Config.HDR0

/-- H0.MISS (R83). -/
def State.h0Miss (s : State) (b : Byte) : State := (s.raiseError .E_HDR0).observe b

/-- H1.HIT (R84). -/
def State.h1Hit (s : State) : State := ((s.store 1 Config.HDR1).setIdx 2).accept.observe Config.HDR1

/-- H1.MISS (R85): the byte is dropped, not looked at again. -/
def State.h1Miss (s : State) (b : Byte) : State := (s.raiseError .E_HDR1).observe b

/-- CMD (R86). -/
def State.cmd (s : State) (b : Byte) : State := ((s.store 2 b).setIdx 3).accept.observe b

/-- ALG (R87). -/
def State.alg (s : State) (b : Byte) : State := ((s.store 3 b).setIdx 4).accept.observe b

/-- LEN.OK (R88). -/
def State.lenOk (s : State) (b : Byte) : State := ((s.store 4 b).setIdx 5).accept.observe b

/-- LEN.OVF (R89): the rejected length is not stored. -/
def State.lenOvf (s : State) (b : Byte) : State := (s.raiseError .E_LEN).observe b

/-- BODY (R90). -/
def State.body (s : State) (b : Byte) : State := (s.store s.idx.toNat b).advanceIdx.accept.observe b

/-- CHK.OK (R91): store, then complete. -/
def State.chkOk (s : State) (b : Byte) : State := (s.store s.idx.toNat b).complete.observe b

/-- CHK.BAD (R92): store, then raise `E_CHK`. -/
def State.chkBad (s : State) (b : Byte) : State := ((s.store s.idx.toNat b).raiseError .E_CHK).observe b

/-! ## PUSH and FEED -/

/-- `PUSH b` (R81) as one function (R94): total, and it consumes its byte in every case. -/
def State.pushByte (s : State) (b : Byte) : State :=
  match s.dispatchClass with
  | .expectHeader0 => if b = Config.HDR0 then s.h0Hit else s.h0Miss b
  | .expectHeader1 => if b = Config.HDR1 then s.h1Hit else s.h1Miss b
  | .expectCommand => s.cmd b
  | .expectAlgo => s.alg b
  | .expectLength => if b.toNat + Config.OVERHEAD ≤ Config.CAP then s.lenOk b else s.lenOvf b
  | .bodyContent => s.body b
  | .bodyChecksum => if b = s.bodySum then s.chkOk b else s.chkBad b

/-- `FEED(s, bs)` (R97): one `PUSH` for each byte, in order.  The statuses produced are the new part of the trace. -/
def State.feed (s : State) (bs : List Byte) : State := bs.foldl State.pushByte s

/-! ## Meanings -/

/-- PUSH b (R81). -/
def execPush (b : Byte) (s : State) : Host.Outcome State Fault Refusal := .next (s.pushByte b)

/-- H0.HIT fires when `S = 0` and `b = 0x55` (R82); the byte is part of the row. -/
def execH0Hit (s : State) : Host.Outcome State Fault Refusal :=
  if s.dispatchClass = .expectHeader0 then .next s.h0Hit else .refused (.transitionDoesNotFire "H0.HIT")

/-- H0.MISS fires when `S = 0` and `b != 0x55` (R83). -/
def execH0Miss (b : Byte) (s : State) : Host.Outcome State Fault Refusal :=
  if s.dispatchClass = .expectHeader0 ∧ b ≠ Config.HDR0 then .next (s.h0Miss b)
  else .refused (.transitionDoesNotFire "H0.MISS")

/-- H1.HIT fires when `S = 1` and `b = 0xAA` (R84); the byte is part of the row. -/
def execH1Hit (s : State) : Host.Outcome State Fault Refusal :=
  if s.dispatchClass = .expectHeader1 then .next s.h1Hit else .refused (.transitionDoesNotFire "H1.HIT")

/-- H1.MISS fires when `S = 1` and `b != 0xAA` (R85). -/
def execH1Miss (b : Byte) (s : State) : Host.Outcome State Fault Refusal :=
  if s.dispatchClass = .expectHeader1 ∧ b ≠ Config.HDR1 then .next (s.h1Miss b)
  else .refused (.transitionDoesNotFire "H1.MISS")

/-- CMD fires when `S = 2`, for every `b` (R86). -/
def execCmd (b : Byte) (s : State) : Host.Outcome State Fault Refusal :=
  if s.dispatchClass = .expectCommand then .next (s.cmd b) else .refused (.transitionDoesNotFire "CMD")

/-- ALG fires when `S = 3`, for every `b` (R87). -/
def execAlg (b : Byte) (s : State) : Host.Outcome State Fault Refusal :=
  if s.dispatchClass = .expectAlgo then .next (s.alg b) else .refused (.transitionDoesNotFire "ALG")

/-- LEN.OK fires when `S = 4` and `b + 6 <= CAP` (R88). -/
def execLenOk (b : Byte) (s : State) : Host.Outcome State Fault Refusal :=
  if s.dispatchClass = .expectLength ∧ b.toNat + Config.OVERHEAD ≤ Config.CAP then .next (s.lenOk b)
  else .refused (.transitionDoesNotFire "LEN.OK")

/-- LEN.OVF fires when `S = 4` and `b + 6 > CAP` (R89). -/
def execLenOvf (b : Byte) (s : State) : Host.Outcome State Fault Refusal :=
  if s.dispatchClass = .expectLength ∧ Config.CAP < b.toNat + Config.OVERHEAD then .next (s.lenOvf b)
  else .refused (.transitionDoesNotFire "LEN.OVF")

/-- BODY fires when `S = 5`, for every `b` (R90). -/
def execBody (b : Byte) (s : State) : Host.Outcome State Fault Refusal :=
  if s.dispatchClass = .bodyContent then .next (s.body b) else .refused (.transitionDoesNotFire "BODY")

/-- CHK.OK fires when `S = 6` and `b = checksum(BUF[0..POS))` (R91). -/
def execChkOk (b : Byte) (s : State) : Host.Outcome State Fault Refusal :=
  if s.dispatchClass = .bodyChecksum ∧ b = s.bodySum then .next (s.chkOk b)
  else .refused (.transitionDoesNotFire "CHK.OK")

/-- CHK.BAD fires when `S = 6` and `b != checksum(BUF[0..POS))` (R92). -/
def execChkBad (b : Byte) (s : State) : Host.Outcome State Fault Refusal :=
  if s.dispatchClass = .bodyChecksum ∧ b ≠ s.bodySum then .next (s.chkBad b)
  else .refused (.transitionDoesNotFire "CHK.BAD")

end Sys2Proof.Machine
end

