-- ==== Sys2Proof/Machine/FrameCommands.lean ====
section
/-! DEFINITION. The twenty FRAME.command rows: the block gives every command the same semantics, its byte is stored
verbatim (R50, R66).  The meaning of a row is the reception of its 40 bits, that is `FEED 55 AA command algorithm_id
content_length` (R47, R65, R97), from whatever state the block is in.  These are five actions, and a step is one action
(R7): the row pushes its first byte and lines up the other four for the four steps that follow
(notes/assumptions/5.md). -/

namespace Sys2Proof.Machine

/-- The reception of the five bytes of a frame prefix (R47, R97): the `PUSH` of the first one now, the `PUSH` of each
later one in a step of its own. -/
def State.receivePrefix (s : State) (c algorithmId contentLength : Byte) : State :=
  (s.pushByte Config.HDR0).pushInput (.chunk Config.HDR1 [c, algorithmId, contentLength])

/-- knock: the prefix of a frame with command byte 0x00 (R50). -/
def execKnock (a n : Byte) (s : State) : Host.Outcome State Fault Refusal := .next (s.receivePrefix 0x00 a n)

/-- get_result: the prefix of a frame with command byte 0x01 (R50). -/
def execGetResult (a n : Byte) (s : State) : Host.Outcome State Fault Refusal := .next (s.receivePrefix 0x01 a n)

/-- get_algo_param: the prefix of a frame with command byte 0x02 (R50). -/
def execGetAlgoParam (a n : Byte) (s : State) : Host.Outcome State Fault Refusal := .next (s.receivePrefix 0x02 a n)

/-- set_algorithm: the prefix of a frame with command byte 0x0A (R50). -/
def execSetAlgorithm (a n : Byte) (s : State) : Host.Outcome State Fault Refusal := .next (s.receivePrefix 0x0A a n)

/-- set_name_by_id: the prefix of a frame with command byte 0x0B (R50). -/
def execSetNameById (a n : Byte) (s : State) : Host.Outcome State Fault Refusal := .next (s.receivePrefix 0x0B a n)

/-- return_args: the prefix of a frame with command byte 0x1A (R50). -/
def execReturnArgs (a n : Byte) (s : State) : Host.Outcome State Fault Refusal := .next (s.receivePrefix 0x1A a n)

/-- return_info: the prefix of a frame with command byte 0x1B (R50). -/
def execReturnInfo (a n : Byte) (s : State) : Host.Outcome State Fault Refusal := .next (s.receivePrefix 0x1B a n)

/-- return_block: the prefix of a frame with command byte 0x1C (R50). -/
def execReturnBlock (a n : Byte) (s : State) : Host.Outcome State Fault Refusal := .next (s.receivePrefix 0x1C a n)

/-- return_arrow: the prefix of a frame with command byte 0x1D (R50). -/
def execReturnArrow (a n : Byte) (s : State) : Host.Outcome State Fault Refusal := .next (s.receivePrefix 0x1D a n)

/-- action_take_photo: the prefix of a frame with command byte 0x20 (R50). -/
def execActionTakePhoto (a n : Byte) (s : State) : Host.Outcome State Fault Refusal := .next (s.receivePrefix 0x20 a n)

/-- action_take_screenshot: the prefix of a frame with command byte 0x21 (R50). -/
def execActionTakeScreenshot (a n : Byte) (s : State) : Host.Outcome State Fault Refusal := .next (s.receivePrefix 0x21 a n)

/-- action_learn: the prefix of a frame with command byte 0x22 (R50). -/
def execActionLearn (a n : Byte) (s : State) : Host.Outcome State Fault Refusal := .next (s.receivePrefix 0x22 a n)

/-- action_forget: the prefix of a frame with command byte 0x23 (R50). -/
def execActionForget (a n : Byte) (s : State) : Host.Outcome State Fault Refusal := .next (s.receivePrefix 0x23 a n)

/-- action_draw_rect: the prefix of a frame with command byte 0x26 (R50). -/
def execActionDrawRect (a n : Byte) (s : State) : Host.Outcome State Fault Refusal := .next (s.receivePrefix 0x26 a n)

/-- action_clear_rect: the prefix of a frame with command byte 0x27 (R50). -/
def execActionClearRect (a n : Byte) (s : State) : Host.Outcome State Fault Refusal := .next (s.receivePrefix 0x27 a n)

/-- action_draw_text: the prefix of a frame with command byte 0x28 (R50). -/
def execActionDrawText (a n : Byte) (s : State) : Host.Outcome State Fault Refusal := .next (s.receivePrefix 0x28 a n)

/-- action_clear_text: the prefix of a frame with command byte 0x29 (R50). -/
def execActionClearText (a n : Byte) (s : State) : Host.Outcome State Fault Refusal := .next (s.receivePrefix 0x29 a n)

/-- action_play_music: the prefix of a frame with command byte 0x2A (R50). -/
def execActionPlayMusic (a n : Byte) (s : State) : Host.Outcome State Fault Refusal := .next (s.receivePrefix 0x2A a n)

/-- action_learn_block: the prefix of a frame with command byte 0x2C (R50). -/
def execActionLearnBlock (a n : Byte) (s : State) : Host.Outcome State Fault Refusal := .next (s.receivePrefix 0x2C a n)

/-- action_draw_unique_rect: the prefix of a frame with command byte 0x2D (R50). -/
def execActionDrawUniqueRect (a n : Byte) (s : State) : Host.Outcome State Fault Refusal := .next (s.receivePrefix 0x2D a n)

end Sys2Proof.Machine
end

