-- ==== Sys2Proof/Machine/System.lean ====
section
/-! DEFINITION. RESET (R133), the one operation of a system kind (R132). -/

namespace Sys2Proof.Machine

/-- What RESET does (R133): `BUF` is not written, the environment's bytes are not flushed and what has been delivered
stays delivered (R135). -/
def State.doReset (s : State) : State := { s with idx := 0, fc := false, st := .PENDING, acc := 0 }

/-- RESET (R133). -/
def execReset (s : State) : Host.Outcome State Fault Refusal := .next s.doReset

end Sys2Proof.Machine
end

