-- ==== Sys2Proof/Machine/Dispatch.lean ====
section
/-! DEFINITION. One arm for each instruction. -/

namespace Sys2Proof.Machine

def exec (i : Instr) (s : State) : Host.Outcome State Fault Refusal :=
  match i with
  | .reset => Sys2Proof.Machine.execReset s
  | .push b => Sys2Proof.Machine.execPush b s
  | .ckClr => Sys2Proof.Machine.execCkClr s
  | .ckAdd b => Sys2Proof.Machine.execCkAdd b s
  | .h0Hit => Sys2Proof.Machine.execH0Hit s
  | .h0Miss b => Sys2Proof.Machine.execH0Miss b s
  | .h1Hit => Sys2Proof.Machine.execH1Hit s
  | .h1Miss b => Sys2Proof.Machine.execH1Miss b s
  | .cmd b => Sys2Proof.Machine.execCmd b s
  | .alg b => Sys2Proof.Machine.execAlg b s
  | .lenOk b => Sys2Proof.Machine.execLenOk b s
  | .lenOvf b => Sys2Proof.Machine.execLenOvf b s
  | .body b => Sys2Proof.Machine.execBody b s
  | .chkOk b => Sys2Proof.Machine.execChkOk b s
  | .chkBad b => Sys2Proof.Machine.execChkBad b s
  | .knock a n => Sys2Proof.Machine.execKnock a n s
  | .getResult a n => Sys2Proof.Machine.execGetResult a n s
  | .getAlgoParam a n => Sys2Proof.Machine.execGetAlgoParam a n s
  | .setAlgorithm a n => Sys2Proof.Machine.execSetAlgorithm a n s
  | .setNameById a n => Sys2Proof.Machine.execSetNameById a n s
  | .returnArgs a n => Sys2Proof.Machine.execReturnArgs a n s
  | .returnInfo a n => Sys2Proof.Machine.execReturnInfo a n s
  | .returnBlock a n => Sys2Proof.Machine.execReturnBlock a n s
  | .returnArrow a n => Sys2Proof.Machine.execReturnArrow a n s
  | .actionTakePhoto a n => Sys2Proof.Machine.execActionTakePhoto a n s
  | .actionTakeScreenshot a n => Sys2Proof.Machine.execActionTakeScreenshot a n s
  | .actionLearn a n => Sys2Proof.Machine.execActionLearn a n s
  | .actionForget a n => Sys2Proof.Machine.execActionForget a n s
  | .actionDrawRect a n => Sys2Proof.Machine.execActionDrawRect a n s
  | .actionClearRect a n => Sys2Proof.Machine.execActionClearRect a n s
  | .actionDrawText a n => Sys2Proof.Machine.execActionDrawText a n s
  | .actionClearText a n => Sys2Proof.Machine.execActionClearText a n s
  | .actionPlayMusic a n => Sys2Proof.Machine.execActionPlayMusic a n s
  | .actionLearnBlock a n => Sys2Proof.Machine.execActionLearnBlock a n s
  | .actionDrawUniqueRect a n => Sys2Proof.Machine.execActionDrawUniqueRect a n s

end Sys2Proof.Machine
end

