-- ==== Sys2Proof/Machine/Fetch.lean ====
section
/-! DEFINITION. How an instruction comes to run: the input a step takes, the run of the instructions it decodes to, and
the placing of a word of the opcode table (notes/assumptions/11.md). -/

namespace Sys2Proof.Machine

/-- The instructions of one step, in order; it stops at the first fault or refusal. -/
def runInstrs : List Instr → State → Host.Outcome State Fault Refusal
  | [], s => .next s
  | i :: is, s =>
    match exec i s with
    | .next t => runInstrs is t
    | .fault f => .fault f
    | .refused r => .refused r

/-- One step: without an input the block holds its state (R108, R131); otherwise it performs what the first input decodes
to, the actions of one clock edge (R60) or one `PUSH` of a chunk (R7, R97), and the later bytes of a chunk are left for the
steps to come. -/
def stepInput (s : State) : Host.Outcome State Fault Refusal :=
  match s.inputs with
  | [] => .next s
  | x :: _ => runInstrs (decodeInput x) (s.popInput.lineUp x.remainder)

/-- The state is in class `c` and, at the checksum position, `sum` is what the byte is compared with. -/
def State.selects (s : State) (c : DispatchClass) (sum : Byte) : Bool :=
  decide (s.dispatchClass = c) && (decide (c ≠ .bodyChecksum) || decide (s.bodySum = sum))

/-- Put the cursor and the buffer where class `c` is current and, for the checksum class, where
`checksum(BUF[0..POS)) = sum`.  Only what the dispatch of R61 and R62 reads is changed, and nothing if the state already
selects it. -/
def State.selectClass (s : State) (c : DispatchClass) (sum : Byte) : State :=
  if s.selects c sum then s
  else
    match c with
    | .expectHeader0 => s.setIdx 0
    | .expectHeader1 => (s.store 0 Config.HDR0).setIdx 1
    | .expectCommand => ((s.store 0 Config.HDR0).store 1 Config.HDR1).setIdx 2
    | .expectAlgo => (((s.store 0 Config.HDR0).store 1 Config.HDR1).store 2 0).setIdx 3
    | .expectLength => ((((s.store 0 Config.HDR0).store 1 Config.HDR1).store 2 0).store 3 0).setIdx 4
    | .bodyContent => (((((s.store 0 Config.HDR0).store 1 Config.HDR1).store 2 0).store 3 0).store 4 1).setIdx 5
    | .bodyChecksum =>
      (((((s.store 0 Config.HDR0).store 1 Config.HDR1).store 2 (sum - 0xFF#8)).store 3 0).store 4 0).setIdx 5

/-- `s` with a word of the opcode table placed so that the very next step runs it: an action word on the ports; for a
dispatch word a state of its class and the `PUSH` of its byte; a frame prefix as a chunk. -/
def State.placeWord (s : State) (nbits w : Nat) : State :=
  match formatOfWidth nbits with
  | some .action => s.pushInput (.edge ⟨BitVec.ofNat 4 w, byteOf w 1, byteOf w 2⟩)
  | some .transition =>
    match classOfCode (byteOf w 1).toNat with
    | some c => (s.selectClass c (byteOf w 2)).pushInput (.edge ⟨0x4#4, byteOf w 0, 0⟩)
    | none => s
  | some .frame => s.lineUp (Input.ofBytes (frameBytesOf w))
  | none => s

end Sys2Proof.Machine
end

