-- ==== Sys2Proof/Machine/Step.lean ====
section
/-! DEFINITION. One step of the machine, and the placing of a word for the next step. -/

namespace Sys2Proof.Machine

/-- One step (R7): see `stepInput`. -/
def step (s : State) : Host.Outcome State Fault Refusal := stepInput s

/-- `s` with the instruction of the table's word `w` as the next one to run: see `State.placeWord`. -/
def State.withFetchWord (s : State) (nbits w : Nat) : State := s.placeWord nbits w

end Sys2Proof.Machine
end

