-- ==== Sys2Proof/Machine/RunningSum.lean ====
section
/-! DEFINITION. The realisation R96 permits: an 8-bit running sum `RS` beside the block, compared with the byte at the
checksum position instead of a sum over `BUF`.  `RS` is not architectural state and is not `ACC`. -/

namespace Sys2Proof.Machine

/-- `RS` after a `PUSH b` (R96): started by H0.HIT, increased modulo 256 by every other accepted byte, kept otherwise. -/
def nextSum (s : State) (rs b : Byte) : Byte :=
  match s.dispatchClass with
  | .expectHeader0 => if b = Config.HDR0 then 0 + b else rs
  | .expectHeader1 => if b = Config.HDR1 then rs + b else rs
  | .expectCommand => rs + b
  | .expectAlgo => rs + b
  | .expectLength => if b.toNat + Config.OVERHEAD ≤ Config.CAP then rs + b else rs
  | .bodyContent => rs + b
  | .bodyChecksum => rs

/-- `PUSH b` with the checksum test made on `RS` (R96). -/
def State.pushByteRS (s : State) (rs b : Byte) : State :=
  match s.dispatchClass with
  | .expectHeader0 => if b = Config.HDR0 then s.h0Hit else s.h0Miss b
  | .expectHeader1 => if b = Config.HDR1 then s.h1Hit else s.h1Miss b
  | .expectCommand => s.cmd b
  | .expectAlgo => s.alg b
  | .expectLength => if b.toNat + Config.OVERHEAD ≤ Config.CAP then s.lenOk b else s.lenOvf b
  | .bodyContent => s.body b
  | .bodyChecksum => if b = rs then s.chkOk b else s.chkBad b

/-- A whole run of the realisation. -/
def feedRS : State × Byte → List Byte → State × Byte
  | p, [] => p
  | (s, rs), b :: bs => feedRS (s.pushByteRS rs b, nextSum s rs b) bs

end Sys2Proof.Machine
end

