-- ==== Sys2Proof/Safety.lean ====
section
/-! DEFINITION. The invariants of R28 (V1 to V9) on the block, and the two invariants on the observation of a run that
V8, R102 and R111 speak of. -/

namespace Sys2Proof.Machine

/-- R28 on the block.  V1 and V9 hold by type: `IDX` has seven bits and `ST` is one of six codes. -/
structure State.Inv (s : State) : Prop where
  /-- The buffer lists its bytes in canonical form, all inside `0..127` (R33). -/
  memory : Memory.wf s.buf
  /-- V2. -/
  header0 : 1 ≤ s.idx.toNat → s.byteAt 0 = Config.HDR0
  /-- V3. -/
  header1 : 2 ≤ s.idx.toNat → s.byteAt 1 = Config.HDR1
  /-- V4. -/
  length : 5 ≤ s.idx.toNat → s.len.toNat ≤ Config.MAXLEN ∧ s.idx.toNat ≤ s.pos
  /-- V5. -/
  complete : s.fc = true ↔ s.st = .FRAME
  /-- V6. -/
  frame : s.fc = true → s.idx = 0 ∧ s.byteAt 0 = Config.HDR0 ∧ s.byteAt 1 = Config.HDR1 ∧
    s.len.toNat ≤ Config.MAXLEN ∧ checksum (s.bytes 0 s.pos) = s.byteAt s.pos
  /-- V7. -/
  idle : s.idx ≠ 0 → s.st = .PENDING
  /-- V8, first part: every byte below the cursor has been written since power-on. -/
  written : ∀ i < s.idx.toNat, (Memory.lookup s.buf i).isSome = true

/-- The observation is sound: with status `FRAME` an event delivers a frame and with any other it delivers nothing (R98);
a delivered frame is an acceptable well-formed frame and is the last bytes pushed, the delivering byte included (R102). -/
def traceSound : List Event → Prop
  | [] => True
  | e :: earlier =>
    (e.delivered.isSome = true ↔ e.status = .FRAME) ∧
      (∀ V, e.delivered = some V →
        acceptableFrame V = true ∧ V.reverse = (pushedBytes (e :: earlier)).take V.length) ∧
      traceSound earlier

/-- The observation invariant: the trace is sound, and the bytes below the cursor are the last bytes pushed, oldest first
(V8: each was written by a PUSH later than the last moment at which `IDX` was 0). -/
structure State.History (s : State) : Prop where
  sound : traceSound s.trace
  current : s.bytes 0 s.idx.toNat = ((pushedBytes s.trace).take s.idx.toNat).reverse

/-- How many frames the run has delivered (R111). -/
def State.nDelivered (s : State) : Nat := s.frameOutput.length

/-- The counting invariant behind R111: every delivery has used up six bytes that no other delivery shares, and the bytes
of the frame in progress are not used up yet. -/
def State.CountInv (s : State) : Prop :=
  6 * s.nDelivered + s.idx.toNat ≤ s.trace.length

/-- The whole invariant. -/
structure State.Good (s : State) : Prop where
  inv : s.Inv
  history : s.History
  count : s.CountInv

end Sys2Proof.Machine
end

