-- ==== Sys2Proof/Certificates/Slice0/Obligations.lean ====
section
/-! DEFINITION. The statements for the provers.  Each docstring names the rule of spec/ that the statement formalises. -/

/-! ## Vocabulary of the statements -/

namespace Sys2Proof.Certificates

open Sys2Proof.Machine

/-- The byte a transition row is for (R62); none for the other rows. -/
def transitionByte : Instr → Option Byte
  | .h0Hit => some 0x55
  | .h0Miss b => some b
  | .h1Hit => some 0xAA
  | .h1Miss b => some b
  | .cmd b => some b
  | .alg b => some b
  | .lenOk b => some b
  | .lenOvf b => some b
  | .body b => some b
  | .chkOk b => some b
  | .chkBad b => some b
  | _ => none

/-- The mnemonic of a transition row (R62). -/
def transitionName : Instr → String
  | .h0Hit => "H0.HIT"
  | .h0Miss _ => "H0.MISS"
  | .h1Hit => "H1.HIT"
  | .h1Miss _ => "H1.MISS"
  | .cmd _ => "CMD"
  | .alg _ => "ALG"
  | .lenOk _ => "LEN.OK"
  | .lenOvf _ => "LEN.OVF"
  | .body _ => "BODY"
  | .chkOk _ => "CHK.OK"
  | .chkBad _ => "CHK.BAD"
  | _ => ""

/-- A statement about each of the twenty FRAME.command rows and its command byte, row by row (R50). -/
def ForEveryCommandRow (P : (Byte → Byte → Instr) → Byte → Prop) : Prop :=
  (P .knock 0x00 ∧ P .getResult 0x01 ∧ P .getAlgoParam 0x02 ∧ P .setAlgorithm 0x0A ∧ P .setNameById 0x0B) ∧
  (P .returnArgs 0x1A ∧ P .returnInfo 0x1B ∧ P .returnBlock 0x1C ∧ P .returnArrow 0x1D) ∧
  (P .actionTakePhoto 0x20 ∧ P .actionTakeScreenshot 0x21 ∧ P .actionLearn 0x22 ∧ P .actionForget 0x23) ∧
  (P .actionDrawRect 0x26 ∧ P .actionClearRect 0x27 ∧ P .actionDrawText 0x28 ∧ P .actionClearText 0x29) ∧
  (P .actionPlayMusic 0x2A ∧ P .actionLearnBlock 0x2C ∧ P .actionDrawUniqueRect 0x2D)

/-- A row of the opcode table: its width rounded up to whole bytes (8 for the table's 4 bits, 16 for its 11), its `match`
and its `mask`; for a FRAME.command row they are read off its 40-character pattern. -/
structure TableRow where
  nbits : Nat
  matched : Nat
  mask : Nat
  deriving DecidableEq, Repr

/-- A FRAME.command row: header and command fixed, `algorithm_id` in bits 15:8 and `content_length` in bits 7:0 free. -/
def commandRow (c : Nat) : TableRow := ⟨40, 0x55AA000000 + c * 0x10000, 0xFFFFFF0000⟩

/-- The row of each instruction, copied from opcode_table.json. -/
def tableRow : Instr → TableRow
  | .reset => ⟨8, 0x8, 0x8⟩
  | .push _ => ⟨8, 0x4, 0xC⟩
  | .ckClr => ⟨8, 0x2, 0xA⟩
  | .ckAdd _ => ⟨8, 0x1, 0xB⟩
  | .h0Hit => ⟨16, 0x055, 0x7FF⟩
  | .h0Miss _ => ⟨16, 0x000, 0x700⟩
  | .h1Hit => ⟨16, 0x1AA, 0x7FF⟩
  | .h1Miss _ => ⟨16, 0x100, 0x700⟩
  | .cmd _ => ⟨16, 0x200, 0x700⟩
  | .alg _ => ⟨16, 0x300, 0x700⟩
  | .lenOk _ => ⟨16, 0x400, 0x700⟩
  | .lenOvf _ => ⟨16, 0x400, 0x700⟩
  | .body _ => ⟨16, 0x500, 0x700⟩
  | .chkOk _ => ⟨16, 0x600, 0x700⟩
  | .chkBad _ => ⟨16, 0x600, 0x700⟩
  | .knock _ _ => commandRow 0x00
  | .getResult _ _ => commandRow 0x01
  | .getAlgoParam _ _ => commandRow 0x02
  | .setAlgorithm _ _ => commandRow 0x0A
  | .setNameById _ _ => commandRow 0x0B
  | .returnArgs _ _ => commandRow 0x1A
  | .returnInfo _ _ => commandRow 0x1B
  | .returnBlock _ _ => commandRow 0x1C
  | .returnArrow _ _ => commandRow 0x1D
  | .actionTakePhoto _ _ => commandRow 0x20
  | .actionTakeScreenshot _ _ => commandRow 0x21
  | .actionLearn _ _ => commandRow 0x22
  | .actionForget _ _ => commandRow 0x23
  | .actionDrawRect _ _ => commandRow 0x26
  | .actionClearRect _ _ => commandRow 0x27
  | .actionDrawText _ _ => commandRow 0x28
  | .actionClearText _ _ => commandRow 0x29
  | .actionPlayMusic _ _ => commandRow 0x2A
  | .actionLearnBlock _ _ => commandRow 0x2C
  | .actionDrawUniqueRect _ _ => commandRow 0x2D

/-- Bytes as a number, the first byte least significant. -/
def littleEndian : List Byte → Nat
  | [] => 0
  | b :: bs => b.toNat + 256 * littleEndian bs

/-- The number of an encoded instruction in the table's numbering: first byte least significant, but for a FRAME.command
row, whose first byte the table puts in bits 39:32 (log entry 12).  The bytes above the row's own bits are the model's (log
entry 13). -/
def tableWord (i : Instr) : Nat :=
  match (encode i).1 with
  | .frame => littleEndian (encode i).2.reverse
  | .action => littleEndian (encode i).2
  | .transition => littleEndian (encode i).2

/-- The bytes of the CK.ADD instructions of a list, in order. -/
def ckAddBytes : List Instr → List Byte
  | [] => []
  | .ckAdd b :: is => b :: ckAddBytes is
  | _ :: is => ckAddBytes is

/-- A run of `PUSH`, one for each byte (R97). -/
def runPushes (bs : List Byte) (s : State) : Host.Outcome State Fault Refusal := runInstrs (bs.map .push) s

/-- `k` steps in a row. -/
def runSteps : Nat → State → Host.Outcome State Fault Refusal
  | 0, s => .next s
  | k + 1, s =>
    match step s with
    | .next t => runSteps k t
    | .fault f => .fault f
    | .refused r => .refused r

/-- The two states cannot be told apart by FA below the cursor: same cursor, and the same bytes at every index below it
(R27, U5). -/
def SameBelowCursor (s t : State) : Prop := s.idx = t.idx ∧ ∀ i < s.idx.toNat, s.byteAt i = t.byteAt i

end Sys2Proof.Certificates

open Sys2Proof Sys2Proof.Machine Sys2Proof.Certificates

/-! ## Reset -/

/-- R133: RESET gives `IDX`, `FC`, `ST`, `ACC` the values of R26 and writes nothing else, in every state; `rst = 1`
overrides every other strobe of the step. -/
def Obligations.ResetClearsAllButTheBuffer : Prop :=
  (∀ s : State, exec .reset s = .next { s with idx := 0, fc := false, st := .PENDING, acc := 0 }) ∧
    ∀ (s : State) (p : Ports) (rest : List Input), s.inputs = .edge p :: rest → p.strobes.getLsbD 3 = true →
      step s = exec .reset { s with inputs := rest }

/-- R26 and R27: the start state.  That nothing is lined up or observed, and that an unwritten byte reads as one constant
of the configuration, are the model's (log entries 1, 3 and 6). -/
def Obligations.StartStateHasResetValues : Prop :=
  State.reset.idx = 0 ∧ State.reset.fc = false ∧ State.reset.st = .PENDING ∧ State.reset.acc = 0 ∧
    State.reset.buf = [] ∧ (∀ a, State.reset.byteAt a = Config.powerOnByte a) ∧
    State.reset.inputs = [] ∧ State.reset.trace = []

/-- The whole invariant holds in the start state. -/
def Obligations.StartStateMeetsInvariants : Prop := State.reset.Good

/-- R28, V8, R102, R111: every step keeps the invariants V1 to V9 of the block, the soundness of the observation and the
count of deliveries. -/
def Obligations.EveryStepKeepsInvariants : Prop :=
  ∀ s t : State, s.Good → step s = .next t → t.Good

/-! ## Steps and encodings -/

/-- A step without input holds the state (R131); otherwise it takes the first input and runs what that decodes to, on the
state with what remains of that input still lined up (R7, R60, R97).  An edge decodes as its action word does.  A chunk that
is a frame prefix with a listed command decodes to that row, any other chunk to the PUSH of its first byte; in both cases the
step is that one PUSH, and the later bytes are left for the steps to come.  The model's choices in it: that inputs are lined
up as a list (log entry 3); that a chunk is one input, that it decodes to a row where it is such a prefix, and what then
remains of it (log entry 5); that in the bytes of an action word `din` and `ck_din` follow the byte that holds `A` (log entry
13). -/
def Obligations.StepRunsTheDecodedInput : Prop :=
  (∀ s : State, s.inputs = [] → step s = .next s) ∧
  (∀ (s : State) (x : Input) (rest : List Input), s.inputs = x :: rest →
    step s = runInstrs (decodeInput x) { s with inputs := x.remainder ++ rest } ∧
    (∀ i, decodeInput x = [i] → step s = exec i { s with inputs := x.remainder ++ rest }) ∧
    (∀ i j t, decodeInput x = [i, j] → exec i { s with inputs := x.remainder ++ rest } = .next t → step s = exec j t) ∧
    (decodeInput x = [] → step s = .next { s with inputs := x.remainder ++ rest })) ∧
  (∀ p : Ports, decode .action [p.strobes.setWidth 8, p.din, p.ckDin] = .ok (decodeInput (.edge p)) ∧
    Input.remainder (.edge p) = []) ∧
  (∀ (b : Byte) (bs : List Byte),
    (∀ is, decode .frame (b :: bs) = .ok is → decodeInput (.chunk b bs) = is ∧ Input.remainder (.chunk b bs) = []) ∧
    (∀ e, decode .frame (b :: bs) = .error e →
      decodeInput (.chunk b bs) = [.push b] ∧ Input.remainder (.chunk b bs) = Input.ofBytes bs)) ∧
  (∀ (s : State) (b : Byte) (bs : List Byte) (rest : List Input), s.inputs = .chunk b bs :: rest →
    step s = exec (.push b) { s with inputs := Input.ofBytes bs ++ rest })

/-- R60: what the strobes of one edge do.  `rst` overrides all, `ck_clr` overrides `ck_add`, a `PUSH` and a CK action
happen both, and `A = 0` performs nothing.  That the PUSH comes first is the model's (log entry 4), and so is the list the
edge stands in (log entry 3). -/
def Obligations.StrobesOfOneEdge : Prop :=
  ∀ (s : State) (p : Ports) (rest : List Input), s.inputs = .edge p :: rest → p.strobes.getLsbD 3 = false →
    ∃ u v, (if p.strobes.getLsbD 2 then exec (.push p.din) { s with inputs := rest } = .next u
              else u = { s with inputs := rest }) ∧
      (if p.strobes.getLsbD 1 then exec .ckClr u = .next v
        else if p.strobes.getLsbD 0 then exec (.ckAdd p.ckDin) u = .next v
        else v = u) ∧
      step s = .next v

/-- A few words of the opcode table, written out bit by bit, decode to their instructions (R60, R61, R62, R50, R66).  Two
clauses rest on the model's choices: that PUSH and CK.ADD read their operand, to which the table gives no bits, from the bytes
above the action word, here 0 (log entry 13), and that the 40-bit word is read as the table numbers it, `header0` in bits
39:32, which is opposite to R47's numbering (log entry 12). -/
def Obligations.TableWordsDecode : Prop :=
  decodeTableWord 8 0b1000 = some .reset ∧ decodeTableWord 8 0b0100 = some (.push 0x00) ∧
  decodeTableWord 8 0b0010 = some .ckClr ∧ decodeTableWord 8 0b0001 = some (.ckAdd 0x00) ∧
  decodeTableWord 16 0b00001010101 = some .h0Hit ∧ decodeTableWord 16 0b00110101010 = some .h1Hit ∧
  decodeTableWord 16 0b10001111010 = some (.lenOk 122) ∧ decodeTableWord 16 0b10001111011 = some (.lenOvf 123) ∧
  decodeTableWord 40 0b0101010110101010000111000000000100001011 = some (.returnBlock 0x01 0x0B) ∧
  decodeTableWord 16 0b11100000000 = none

/-- Decoding is the inverse of encoding, for every row and every operand its encoding admits (R60, R62, R66).  Where the
operand bytes stand that the table gives no bits, and the third byte of a dispatch word, are the model's choice (log
entry 13). -/
def Obligations.DecodeInvertsEncode : Prop :=
  ∀ i : Instr, i.wf = true → decode (encode i).1 (encode i).2 = .ok [i]

/-- Every encoded instruction matches its own row of the opcode table, and the decoder by table numbering reads it back
(R60, R62, R66).  The model's choices in it: the widths are the table's 4 and 11 bits rounded up to whole bytes, and the
operand bytes of PUSH and CK.ADD and the third byte, which alone tells CHK.BAD from CHK.OK, lie above the bits the table gives
the row (log entry 13); a 40-bit row is numbered as the table does, not as R47 does (log entry 12). -/
def Obligations.EncodedWordsMatchTheTable : Prop :=
  ∀ i : Instr, i.wf = true →
    tableWord i &&& (tableRow i).mask = (tableRow i).matched ∧
      decodeTableWord (tableRow i).nbits (tableWord i) = some i

/-- A placed word is what the very next step runs, from every state and for every row: the step is `exec` of that
instruction on the placed state with its input taken, and it completes.  The placing is the model's (log entry 11), and so are
the bytes above the row's own bits and the numbering of a 40-bit word (log entries 13 and 12). -/
def Obligations.PlacedWordRunsNext : Prop :=
  ∀ (s : State) (i : Instr), i.wf = true →
    ∃ t, step (s.withFetchWord (tableRow i).nbits (tableWord i)) = .next t ∧
      exec i { s.withFetchWord (tableRow i).nbits (tableWord i) with inputs := s.inputs } = .next t

/-! ## The dispatch of PUSH -/

/-- R61: the dispatch class and its code, condition by condition. -/
def Obligations.DispatchClassOfTheCursor : Prop :=
  ∀ s : State,
    (s.idx.toNat = 0 → s.dispatchClass = .expectHeader0 ∧ s.dispatchClass.code = 0) ∧
    (s.idx.toNat = 1 → s.dispatchClass = .expectHeader1 ∧ s.dispatchClass.code = 1) ∧
    (s.idx.toNat = 2 → s.dispatchClass = .expectCommand ∧ s.dispatchClass.code = 2) ∧
    (s.idx.toNat = 3 → s.dispatchClass = .expectAlgo ∧ s.dispatchClass.code = 3) ∧
    (s.idx.toNat = 4 → s.dispatchClass = .expectLength ∧ s.dispatchClass.code = 4) ∧
    (5 ≤ s.idx.toNat → s.idx.toNat < (s.byteAt 4).toNat + 5 →
      s.dispatchClass = .bodyContent ∧ s.dispatchClass.code = 5) ∧
    (5 ≤ s.idx.toNat → (s.byteAt 4).toNat + 5 ≤ s.idx.toNat →
      s.dispatchClass = .bodyChecksum ∧ s.dispatchClass.code = 6)

/-- R17: the six state names. -/
def Obligations.StateNameOfTheCursor : Prop :=
  ∀ s : State,
    (s.idx.toNat = 0 → s.stateName = .ExpectHeader0) ∧ (s.idx.toNat = 1 → s.stateName = .ExpectHeader1) ∧
    (s.idx.toNat = 2 → s.stateName = .ExpectCommand) ∧ (s.idx.toNat = 3 → s.stateName = .ExpectAlgo) ∧
    (s.idx.toNat = 4 → s.stateName = .ExpectLength) ∧ (5 ≤ s.idx.toNat → s.stateName = .AccumulateBody)

/-- R62, R81: a PUSH performs exactly the transition its class and byte select, and a transition row runs exactly when it
is that one; otherwise it is refused by its name (log entry 7). -/
def Obligations.PushPerformsTheSelectedTransition : Prop :=
  ∀ (s : State) (b : Byte) (i : Instr), transitionByte i = some b →
    (i = selectTransition s.dispatchClass b s.bodySum →
      exec i s = exec (.push b) s ∧ ∃ t, exec i s = .next t) ∧
    (i ≠ selectTransition s.dispatchClass b s.bodySum →
      exec i s = .refused (.transitionDoesNotFire (transitionName i)))

/-- R62: for every state and byte exactly one of the eleven rows fires. -/
def Obligations.ExactlyOneTransitionFires : Prop :=
  ∀ (s : State) (b : Byte), ∃! i : Instr, transitionByte i = some b ∧ ∃ t, exec i s = .next t

/-! ## The eleven transitions

Each statement gives the whole next state but for the observation (`trace`), the model's own field, whose new event is in
`StatusOfEveryPush`. -/

/-- R82. -/
def Obligations.HeaderZeroHit : Prop :=
  ∀ s : State, s.idx = 0 → ∃ t,
    t = { s with
      idx := 1, buf := Memory.write s.buf 0 0x55, fc := false, st := .PENDING
      trace := t.trace } ∧
    exec .h0Hit s = .next t ∧ exec (.push 0x55) s = .next t

/-- R83. -/
def Obligations.HeaderZeroMiss : Prop :=
  ∀ (s : State) (b : Byte), s.idx = 0 → b ≠ 0x55 → ∃ t,
    t = { s with idx := 0, fc := false, st := .E_HDR0, trace := t.trace } ∧
    exec (.h0Miss b) s = .next t ∧ exec (.push b) s = .next t

/-- R84. -/
def Obligations.HeaderOneHit : Prop :=
  ∀ s : State, s.idx = 1 → ∃ t,
    t = { s with
      idx := 2, buf := Memory.write s.buf 1 0xAA, fc := false, st := .PENDING
      trace := t.trace } ∧
    exec .h1Hit s = .next t ∧ exec (.push 0xAA) s = .next t

/-- R85: also for `b = 0x55`, which is dropped. -/
def Obligations.HeaderOneMiss : Prop :=
  ∀ (s : State) (b : Byte), s.idx = 1 → b ≠ 0xAA → ∃ t,
    t = { s with idx := 0, fc := false, st := .E_HDR1, trace := t.trace } ∧
    exec (.h1Miss b) s = .next t ∧ exec (.push b) s = .next t

/-- R86. -/
def Obligations.CommandStoredVerbatim : Prop :=
  ∀ (s : State) (b : Byte), s.idx = 2 → ∃ t,
    t = { s with
      idx := 3, buf := Memory.write s.buf 2 b, fc := false, st := .PENDING
      trace := t.trace } ∧
    exec (.cmd b) s = .next t ∧ exec (.push b) s = .next t

/-- R87. -/
def Obligations.AlgorithmStoredVerbatim : Prop :=
  ∀ (s : State) (b : Byte), s.idx = 3 → ∃ t,
    t = { s with
      idx := 4, buf := Memory.write s.buf 3 b, fc := false, st := .PENDING
      trace := t.trace } ∧
    exec (.alg b) s = .next t ∧ exec (.push b) s = .next t

/-- R88. -/
def Obligations.LengthAccepted : Prop :=
  ∀ (s : State) (b : Byte), s.idx = 4 → b.toNat ≤ 122 → ∃ t,
    t = { s with
      idx := 5, buf := Memory.write s.buf 4 b, fc := false, st := .PENDING
      trace := t.trace } ∧
    exec (.lenOk b) s = .next t ∧ exec (.push b) s = .next t

/-- R89: the rejected length is not stored. -/
def Obligations.LengthRejected : Prop :=
  ∀ (s : State) (b : Byte), s.idx = 4 → 123 ≤ b.toNat → ∃ t,
    t = { s with idx := 0, fc := false, st := .E_LEN, trace := t.trace } ∧
    exec (.lenOvf b) s = .next t ∧ exec (.push b) s = .next t

/-- R90: the cursor goes up by one; with an accepted length (as in every state a run reaches) that is one as a natural
number too. -/
def Obligations.ContentByteStored : Prop :=
  ∀ (s : State) (b : Byte), 5 ≤ s.idx.toNat → s.idx.toNat < (s.byteAt 4).toNat + 5 → ∃ t,
    t = { s with
      idx := s.idx + 1, buf := Memory.write s.buf s.idx.toNat b, fc := false, st := .PENDING
      trace := t.trace } ∧
    ((s.byteAt 4).toNat ≤ 122 → t.idx.toNat = s.idx.toNat + 1) ∧
    exec (.body b) s = .next t ∧ exec (.push b) s = .next t

/-- R91, at the checksum position as R61 has it (class 6). -/
def Obligations.ChecksumMatchCompletes : Prop :=
  ∀ (s : State) (b : Byte), 5 ≤ s.idx.toNat → (s.byteAt 4).toNat + 5 ≤ s.idx.toNat →
    b = checksum (s.bytes 0 ((s.byteAt 4).toNat + 5)) → ∃ t,
    t = { s with
      idx := 0, buf := Memory.write s.buf s.idx.toNat b, fc := true, st := .FRAME
      trace := t.trace } ∧
    exec (.chkOk b) s = .next t ∧ exec (.push b) s = .next t

/-- R92, at the checksum position as R61 has it (class 6). -/
def Obligations.ChecksumMismatchDrops : Prop :=
  ∀ (s : State) (b : Byte), 5 ≤ s.idx.toNat → (s.byteAt 4).toNat + 5 ≤ s.idx.toNat →
    b ≠ checksum (s.bytes 0 ((s.byteAt 4).toNat + 5)) → ∃ t,
    t = { s with
      idx := 0, buf := Memory.write s.buf s.idx.toNat b, fc := false, st := .E_CHK
      trace := t.trace } ∧
    exec (.chkBad b) s = .next t ∧ exec (.push b) s = .next t

/-! ## What every PUSH does and leaves alone -/

/-- R113 to R117, R119, R98: every PUSH answers a next state and exactly one status, each error status exactly on its
cause; `FC` is 1 exactly with `FRAME`; the codes.  One event is observed, and with status `FRAME` alone it delivers
`BUF[0..POS]`, read after the action; that the observation is a list in the state is the model's (log entry 6). -/
def Obligations.StatusOfEveryPush : Prop :=
  (∀ (s : State) (b : Byte), ∃ t, exec (.push b) s = .next t ∧
    (t.st = .E_HDR0 ↔ s.idx = 0 ∧ b ≠ 0x55) ∧
    (t.st = .E_HDR1 ↔ s.idx = 1 ∧ b ≠ 0xAA) ∧
    (t.st = .E_LEN ↔ s.idx = 4 ∧ 123 ≤ b.toNat) ∧
    (t.st = .E_CHK ↔ (5 ≤ s.idx.toNat ∧ (s.byteAt 4).toNat + 5 ≤ s.idx.toNat) ∧
      b ≠ checksum (s.bytes 0 ((s.byteAt 4).toNat + 5))) ∧
    (t.st = .FRAME ↔ (5 ≤ s.idx.toNat ∧ (s.byteAt 4).toNat + 5 ≤ s.idx.toNat) ∧
      b = checksum (s.bytes 0 ((s.byteAt 4).toNat + 5))) ∧
    (t.fc = true ↔ t.st = .FRAME) ∧
    t.trace = ⟨b, t.st, if t.st = .FRAME then some (t.bytes 0 ((t.byteAt 4).toNat + 6)) else none⟩ :: s.trace) ∧
  Status.PENDING.code = 0 ∧ Status.FRAME.code = 1 ∧ Status.E_HDR0.code = 2 ∧ Status.E_HDR1.code = 3 ∧
    Status.E_LEN.code = 4 ∧ Status.E_CHK.code = 5

/-- R120: all an error does. -/
def Obligations.ErrorDoesNothingElse : Prop :=
  ∀ (s : State) (b : Byte), ∃ t, exec (.push b) s = .next t ∧
    (t.st = .E_HDR0 ∨ t.st = .E_HDR1 ∨ t.st = .E_LEN → t.fc = false ∧ t.idx = 0 ∧ t.acc = s.acc ∧ t.buf = s.buf) ∧
    (t.st = .E_CHK → t.fc = false ∧ t.idx = 0 ∧ t.acc = s.acc ∧ t.buf = Memory.write s.buf s.idx.toNat b)

/-- R30, R34: the frame of PUSH.  `ACC` and the inputs are unchanged, the observation only grows; the byte is stored at
index `IDX` unless the status is a framing error, and every other byte of the buffer reads as before. -/
def Obligations.PushWritesOneByteAtTheCursor : Prop :=
  ∀ (s : State) (b : Byte), ∃ t, exec (.push b) s = .next t ∧
    t.acc = s.acc ∧ t.inputs = s.inputs ∧ t.trace.tail = s.trace ∧
    (∀ a, a ≠ s.idx.toNat → t.byteAt a = s.byteAt a) ∧
    (t.st = .E_HDR0 ∨ t.st = .E_HDR1 ∨ t.st = .E_LEN → t.byteAt s.idx.toNat = s.byteAt s.idx.toNat) ∧
    (¬ (t.st = .E_HDR0 ∨ t.st = .E_HDR1 ∨ t.st = .E_LEN) → t.byteAt s.idx.toNat = b)

/-- R93: the cursor moves forward by one, exactly with status `PENDING`, or returns to 0.  In every state with an accepted
length, as all states a run reaches are. -/
def Obligations.CursorAdvancesByOneOrReturns : Prop :=
  ∀ (s : State) (b : Byte), (5 ≤ s.idx.toNat → (s.byteAt 4).toNat ≤ 122) → ∃ t, exec (.push b) s = .next t ∧
    (t.st = .PENDING → t.idx.toNat = s.idx.toNat + 1) ∧ (t.st ≠ .PENDING → t.idx = 0)

/-- R33, R42: a byte stored is what the next read of its index gives, every other index reads as before, and storing inside
the buffer keeps its canonical form. -/
def Obligations.BufferReadsWhatWasStored : Prop :=
  ∀ (m : Memory) (a a' : Nat) (v : Byte),
    Memory.read (Memory.write m a v) a = v ∧
      (a' ≠ a → Memory.read (Memory.write m a v) a' = Memory.read m a') ∧
      (Memory.wf m → a < 128 → Memory.wf (Memory.write m a v))

/-- R23, R39, R60: what the output ports show; a read is a function of the state. -/
def Obligations.OutputPortsShowTheState : Prop :=
  ∀ (s : State) (raddr : BitVec 7),
    (s.outputs raddr).fc = s.fc ∧ (s.outputs raddr).st = s.st.code ∧ (s.outputs raddr).idx = s.idx ∧
      (s.outputs raddr).rdata = Memory.read s.buf raddr.toNat ∧ (s.outputs raddr).acc = s.acc

/-! ## The checksum unit -/

/-- R74. -/
def Obligations.CkClrClearsTheAccumulator : Prop :=
  ∀ s : State, exec .ckClr s = .next { s with acc := 0 }

/-- R75. -/
def Obligations.CkAddAddsModulo256 : Prop :=
  ∀ (s : State) (b : Byte),
    exec (.ckAdd b) s = .next { s with acc := BitVec.ofNat 8 ((s.acc.toNat + b.toNat) % 256) }

/-- R76, R147: what `ACC` holds after any mix of CK.ADD and PUSH, and after CK.SUM. -/
def Obligations.AccumulatorHoldsTheChecksum : Prop :=
  (∀ (is : List Instr) (s : State), (∀ i ∈ is, (∃ b, i = .ckAdd b) ∨ ∃ b, i = .push b) →
    ∃ t, runInstrs is s = .next t ∧ t.acc = checksum (s.acc :: ckAddBytes is)) ∧
  (∀ (bs : List Byte) (s : State),
    runInstrs (.ckClr :: bs.map .ckAdd) s = .next { s with acc := checksum bs })

/-- R30: a PUSH and a CK action commute. -/
def Obligations.PushAndCkCommute : Prop :=
  ∀ (s : State) (b c : Byte), ∃ t u,
    runInstrs [.push b, .ckClr] s = .next t ∧ runInstrs [.ckClr, .push b] s = .next t ∧
      runInstrs [.push b, .ckAdd c] s = .next u ∧ runInstrs [.ckAdd c, .push b] s = .next u

/-- R70 (a) to (f). -/
def Obligations.ChecksumArithmeticLaws : Prop :=
  (∀ s : List Byte, (checksum s).toNat = (s.map BitVec.toNat).sum % 256) ∧
  (∀ (s : List Byte) (b : Byte), (checksum (s ++ [b])).toNat = ((checksum s).toNat + b.toNat) % 256) ∧
  (∀ s t : List Byte, (checksum (s ++ t)).toNat = ((checksum s).toNat + (checksum t).toNat) % 256) ∧
  (∀ s t : List Byte, s.Perm t → checksum s = checksum t) ∧
  (∀ s t : List Byte, checksum (s ++ 0x00 :: t) = checksum (s ++ t)) ∧
  (∀ s : List Byte, s.length ≤ 127 → (s.map BitVec.toNat).sum ≤ 32385)

/-- R73. -/
def Obligations.CodecRoundTrip : Prop :=
  ∀ s : List Byte, frameOk (appendChecksum s) = true ∧
    (∃! c : Byte, verify s c = true) ∧ verify s (checksum s) = true

/-- R77: every change of the value of a single byte, the checksum's included, is detected. -/
def Obligations.SingleByteChangeDetected : Prop :=
  (∀ (s : List Byte) (k : Nat) (v : Byte), k < s.length → s.getD k 0 ≠ v →
    verify (s.set k v) (checksum s) = false) ∧
  (∀ (s : List Byte) (c : Byte), c ≠ checksum s → verify s c = false) ∧
  (∀ (F : List Byte) (k : Nat) (v : Byte), frameOk F = true → k < F.length → F.getD k 0 ≠ v →
    frameOk (F.set k v) = false)

/-- R59, with R58 and R99: `mk_frame` makes well-formed frames, every well-formed frame is made by it, and the fields are
what it was made from. -/
def Obligations.FrameConstructor : Prop :=
  (∀ (c a : Byte) (s : List Byte), s.length ≤ 255 →
    wellFormedFrame (mkFrame c a s) = true ∧ (acceptableFrame (mkFrame c a s) = true ↔ s.length ≤ 122) ∧
      frameCommand (mkFrame c a s) = some c ∧ frameAlgorithmId (mkFrame c a s) = some a ∧
      frameContentLength (mkFrame c a s) = some (BitVec.ofNat 8 s.length) ∧ frameContent (mkFrame c a s) = s ∧
      frameChecksum (mkFrame c a s) = some (checksum (mkFrame c a s).dropLast)) ∧
  (∀ F : List Byte, wellFormedFrame F = true → F = mkFrame (F.getD 2 0) (F.getD 3 0) (frameContent F))

/-! ## The twenty command rows

A row is five actions, one in each step (R7): exec of the row is the first, and the four steps that follow are the others
(log entry 5). -/

/-- R50, R66: from idle, each of the twenty prefixes with an accepted length is stored verbatim and after its five actions
leaves the block waiting at `IDX = 5`; `ACC`, every other byte of the buffer and the other inputs are unchanged. -/
def Obligations.CommandPrefixAccepted : Prop :=
  ForEveryCommandRow fun row c => ∀ (s : State) (a n : Byte), s.idx = 0 → n.toNat ≤ 122 → ∃ t,
    exec (row a n) s = .next t ∧
    t = { s with
      idx := 1, buf := Memory.write s.buf 0 0x55, fc := false, st := .PENDING
      inputs := .chunk 0xAA [c, a, n] :: s.inputs, trace := ⟨0x55, .PENDING, none⟩ :: s.trace } ∧
    runSteps 4 t = .next { s with
      idx := 5
      buf := Memory.write (Memory.write (Memory.write (Memory.write (Memory.write s.buf 0 0x55) 1 0xAA) 2 c) 3 a) 4 n
      fc := false, st := .PENDING
      trace := [⟨n, .PENDING, none⟩, ⟨a, .PENDING, none⟩, ⟨c, .PENDING, none⟩, ⟨0xAA, .PENDING, none⟩,
        ⟨0x55, .PENDING, none⟩] ++ s.trace }

/-- R50, R66, R89: from idle, each of the twenty prefixes with a length of 123 to 255 ends after its five actions in `E_LEN`,
idle, with its four first bytes left in the buffer. -/
def Obligations.CommandPrefixRejected : Prop :=
  ForEveryCommandRow fun row c => ∀ (s : State) (a n : Byte), s.idx = 0 → 123 ≤ n.toNat → ∃ t,
    exec (row a n) s = .next t ∧
    t = { s with
      idx := 1, buf := Memory.write s.buf 0 0x55, fc := false, st := .PENDING
      inputs := .chunk 0xAA [c, a, n] :: s.inputs, trace := ⟨0x55, .PENDING, none⟩ :: s.trace } ∧
    runSteps 4 t = .next { s with
      idx := 0
      buf := Memory.write (Memory.write (Memory.write (Memory.write s.buf 0 0x55) 1 0xAA) 2 c) 3 a
      fc := false, st := .E_LEN
      trace := [⟨n, .E_LEN, none⟩, ⟨a, .PENDING, none⟩, ⟨c, .PENDING, none⟩, ⟨0xAA, .PENDING, none⟩,
        ⟨0x55, .PENDING, none⟩] ++ s.trace }

/-- R7, R65, R97: in every state each of the twenty rows is the reception of its five bytes: exec is the PUSH of the first
with the later four lined up, and with the four steps that follow it is the five PUSH. -/
def Obligations.CommandPrefixIsFivePushes : Prop :=
  ForEveryCommandRow fun row c => ∀ (s : State) (a n : Byte), ∃ t u,
    exec (row a n) s = .next t ∧ exec (.push 0x55) { s with inputs := .chunk 0xAA [c, a, n] :: s.inputs } = .next t ∧
      runSteps 4 t = .next u ∧ runPushes [0x55, 0xAA, c, a, n] s = .next u

/-! ## Streams

Statuses and frame outputs are read off the observation, which the model holds in a field of its own (log entry 6). -/

/-- R108: from every state a step has a next state, and so has each of the four actions. -/
def Obligations.NothingEverStops : Prop :=
  ∀ s : State, (∃ t, step s = .next t) ∧ (∃ t, exec .reset s = .next t) ∧ (∀ b, ∃ t, exec (.push b) s = .next t) ∧
    (∃ t, exec .ckClr s = .next t) ∧ ∀ b, ∃ t, exec (.ckAdd b) s = .next t

/-- R100, R7: a run does not depend on how the Transport cut the stream.  However `cuts` are lined up as chunks, and also
with one byte at an edge, as many steps as there are bytes perform exactly their PUSHes, in order.  That inputs are a list
of edges and chunks is the model's (log entries 3 and 5). -/
def Obligations.ChunkingIsInvisible : Prop :=
  ∀ (s : State) (cuts : List (List Byte)) (rest : List Input),
    runSteps cuts.flatten.length { s with inputs := cuts.flatMap Input.ofBytes ++ rest } =
      runPushes cuts.flatten { s with inputs := rest } ∧
    runSteps cuts.flatten.length { s with inputs := cuts.flatten.map (fun b => .edge ⟨0x4, b, 0⟩) ++ rest } =
      runPushes cuts.flatten { s with inputs := rest }

/-- R101: from idle an acceptable well-formed frame is delivered, as itself, at its last byte. -/
def Obligations.AcceptableFrameIsDelivered : Prop :=
  ∀ (s : State) (F : List Byte), s.idx = 0 → acceptableFrame F = true →
    ∃ t, runPushes F s = .next t ∧ t.idx = 0 ∧ t.fc = true ∧ t.st = .FRAME ∧ t.bytes 0 F.length = F ∧
      t.statuses = s.statuses ++ List.replicate (F.length - 1) .PENDING ++ [.FRAME] ∧
      t.frameOutput = s.frameOutput ++ [F] ∧ t.acc = s.acc

/-- R102: a delivery is an acceptable well-formed frame and is the last bytes pushed. -/
def Obligations.DeliveredFrameIsSound : Prop :=
  ∀ (s : State) (b : Byte), s.Good → ∃ t, exec (.push b) s = .next t ∧
    (t.st ≠ .FRAME → t.frameOutput = s.frameOutput) ∧
    (t.st = .FRAME → ∃ V, t.frameOutput = s.frameOutput ++ [V] ∧ V = s.bytes 0 s.idx.toNat ++ [b] ∧
      acceptableFrame V = true ∧ V.reverse = (pushedBytes t.trace).take V.length)

/-- R103 (a): from idle, bytes without `0x55` change nothing but `FC` and `ST` (and the observation). -/
def Obligations.StreamWithoutHeaderByteIsInert : Prop :=
  ∀ (s : State) (g : List Byte), s.idx = 0 → g ≠ [] → (∀ b ∈ g, b ≠ 0x55) →
    ∃ t, runPushes g s = .next t ∧ t = { s with fc := false, st := .E_HDR0, trace := t.trace } ∧
      t.statuses = s.statuses ++ List.replicate g.length .E_HDR0 ∧ t.frameOutput = s.frameOutput

/-- R104: after any bytes that leave the block idle, an acceptable frame is delivered and nothing else is. -/
def Obligations.ResynchronisesWhenIdle : Prop :=
  ∀ (s u : State) (g F : List Byte), runPushes g s = .next u → u.idx = 0 → acceptableFrame F = true →
    ∃ t, runPushes (g ++ F) s = .next t ∧ t.frameOutput = u.frameOutput ++ [F] ∧ t.idx = 0

/-- R105: the source's garbage-prefix streams, from every idle state. -/
def Obligations.FalseSynchronisation : Prop :=
  ∀ s : State, s.idx = 0 →
    (∃ t, runPushes [0xAA, 0x55, 0xAA, 0x55, 0xAA, 0x01, 0x01, 0x00, 0x01] s = .next t ∧
      t.statuses = s.statuses ++ [.E_HDR0, .PENDING, .PENDING, .PENDING, .PENDING, .PENDING, .PENDING, .FRAME, .E_HDR0] ∧
      t.frameOutput = s.frameOutput ++ [[0x55, 0xAA, 0x55, 0xAA, 0x01, 0x01, 0x00]]) ∧
    (∃ t, runPushes ([0xAA, 0x55, 0xAA] ++ [0x55, 0xAA, 0x1C, 0x01, 0x0B, 0x03, 0x00, 0x0A, 0x00, 0x14, 0x00, 0x05, 0x00,
        0x06, 0x00, 0x00, 0x53]) s = .next t ∧
      t.idx = 19 ∧ t.frameOutput = s.frameOutput)

/-- R106: from `IDX = k >= 1` the block is idle again after at most `128 - k` further bytes. -/
def Obligations.AttemptEndsWithin128Bytes : Prop :=
  ∀ (s : State) (bs : List Byte), s.Inv → s.idx ≠ 0 → bs.length = 128 - s.idx.toNat →
    ∃ j t, 1 ≤ j ∧ j ≤ bs.length ∧ runPushes (bs.take j) s = .next t ∧ t.idx = 0

/-- R107: back-to-back frames are all delivered, in order. -/
def Obligations.BackToBackFramesAreDelivered : Prop :=
  ∀ (s : State) (Fs : List (List Byte)), s.idx = 0 → (∀ F ∈ Fs, acceptableFrame F = true) →
    ∃ t, runPushes Fs.flatten s = .next t ∧ t.frameOutput = s.frameOutput ++ Fs ∧ t.idx = 0

/-- R109: the round trip with the frame constructor, and the rejection of a longer content at its fifth byte. -/
def Obligations.RoundTripWithTheEncoder : Prop :=
  ∀ (s : State) (c a : Byte) (content : List Byte), s.idx = 0 →
    (content.length ≤ 122 → ∃ t V, runPushes (mkFrame c a content) s = .next t ∧
      t.frameOutput = s.frameOutput ++ [V] ∧ frameCommand V = some c ∧ frameAlgorithmId V = some a ∧
      frameContent V = content) ∧
    (123 ≤ content.length → content.length ≤ 255 →
      ∃ t, runPushes ((mkFrame c a content).take 5) s = .next t ∧ t.idx = 0 ∧ t.st = .E_LEN ∧
        t.frameOutput = s.frameOutput)

/-- R110, the rows for positions other than 0, 1 and 4: every byte is accepted, `E_CHK` at the last one, nothing
delivered, idle afterwards. -/
def Obligations.ChangedBodyByteEndsInChecksumError : Prop :=
  ∀ (s : State) (F : List Byte) (p : Nat) (v : Byte), s.idx = 0 → acceptableFrame F = true → p < F.length →
    p ≠ 0 → p ≠ 1 → p ≠ 4 → F.getD p 0 ≠ v →
    ∃ t, runPushes (F.set p v) s = .next t ∧ t.idx = 0 ∧ t.st = .E_CHK ∧ t.frameOutput = s.frameOutput ∧
      t.statuses = s.statuses ++ List.replicate (F.length - 1) .PENDING ++ [.E_CHK]

/-- R110, the rows for positions 0, 1 and 4 whose outcome R110 fixes: a wrong header byte, a length of 123 or more, a length
that is longer but accepted. -/
def Obligations.ChangedHeaderOrLengthByte : Prop :=
  ∀ (s : State) (F : List Byte) (v : Byte), s.idx = 0 → acceptableFrame F = true →
    (v ≠ 0x55 → ∃ t, runPushes ((F.set 0 v).take 2) s = .next t ∧ t.idx = 0 ∧
      t.statuses = s.statuses ++ [.E_HDR0, .E_HDR0] ∧ t.frameOutput = s.frameOutput) ∧
    (v ≠ 0xAA → ∃ t, runPushes ((F.set 1 v).take 2) s = .next t ∧ t.idx = 0 ∧
      t.statuses = s.statuses ++ [.PENDING, .E_HDR1] ∧ t.frameOutput = s.frameOutput) ∧
    (123 ≤ v.toNat → ∃ t, runPushes ((F.set 4 v).take 5) s = .next t ∧ t.idx = 0 ∧
      t.statuses = s.statuses ++ [.PENDING, .PENDING, .PENDING, .PENDING, .E_LEN] ∧ t.frameOutput = s.frameOutput) ∧
    ((F.getD 4 0).toNat < v.toNat → v.toNat ≤ 122 → ∃ t, runPushes (F.set 4 v) s = .next t ∧
      t.idx.toNat = F.length ∧ t.statuses = s.statuses ++ List.replicate F.length .PENDING ∧
      t.frameOutput = s.frameOutput)

/-- R111: at most one delivery for every six bytes pushed, the bytes of the frame in progress counted. -/
def Obligations.DeliveriesAreCounted : Prop :=
  ∀ (s : State) (bs : List Byte), ∃ t, runPushes bs s = .next t ∧
    6 * t.frameOutput.length + t.idx.toNat ≤ 6 * s.frameOutput.length + s.idx.toNat + bs.length

/-- R141: a stray `0x55` just before a frame loses the frame's header. -/
def Obligations.StrayHeaderByteLosesTheHeader : Prop :=
  ∀ s : State, s.idx = 0 → ∃ t, runPushes [0x55, 0x55, 0xAA] s = .next t ∧ t.idx = 0 ∧
    t.statuses = s.statuses ++ [.PENDING, .E_HDR1, .E_HDR0] ∧ t.frameOutput = s.frameOutput

/-- R31, R98, R135: a delivered frame value is a copy: no instruction takes it back or changes it. -/
def Obligations.DeliveredFramesStay : Prop :=
  ∀ (is : List Instr) (s t : State), runInstrs is s = .next t →
    ∃ new, t.frameOutput = s.frameOutput ++ new

/-- R138: the frame just delivered still stands in the buffer after two further PUSH actions, whatever they bring. -/
def Obligations.DeliveredFrameOutlastsTwoPushes : Prop :=
  ∀ (s : State) (bs : List Byte), s.Inv → s.fc = true → bs.length ≤ 2 →
    ∃ t, runPushes bs s = .next t ∧ ∀ i < 128, t.byteAt i = s.byteAt i

/-- R27, U1, U5: bytes of the buffer at or above the cursor never matter.  Two states that differ only there (or in `ACC`,
`FC`, `ST`) give the same statuses and deliver the same frames on every stream. -/
def Obligations.StaleBytesNeverMatter : Prop :=
  ∀ (s u : State) (bs : List Byte), s.Inv → u.Inv → SameBelowCursor s u →
    ∃ t v newStatuses newFrames, runPushes bs s = .next t ∧ runPushes bs u = .next v ∧ SameBelowCursor t v ∧
      t.statuses = s.statuses ++ newStatuses ∧ v.statuses = u.statuses ++ newStatuses ∧
      t.frameOutput = s.frameOutput ++ newFrames ∧ v.frameOutput = u.frameOutput ++ newFrames

/-- R96: the realisation with a running sum agrees with FA on every stream, from every state that meets the invariants, if
its sum is right where a frame is in progress; and its sum stays right. -/
def Obligations.RunningSumRefinesTheAssembler : Prop :=
  ∀ (s : State) (rs : Byte) (bs : List Byte), s.Inv →
    (1 ≤ s.idx.toNat → rs = checksum (s.bytes 0 s.idx.toNat)) →
    runPushes bs s = .next (feedRS (s, rs) bs).1 ∧
      (1 ≤ (feedRS (s, rs) bs).1.idx.toNat →
        (feedRS (s, rs) bs).2 = checksum ((feedRS (s, rs) bs).1.bytes 0 (feedRS (s, rs) bs).1.idx.toNat))
end

