-- ==== Sys2Proof/Laws/State.lean ====
section
/-! SUPPORT. One lemma for each field and each named update of the state: what the field is afterwards. -/

namespace Sys2Proof.Machine

@[simp] theorem State.store_idx (s : State) (i : Nat) (b : Byte) : (s.store i b).idx = s.idx := rfl
@[simp] theorem State.store_buf (s : State) (i : Nat) (b : Byte) : (s.store i b).buf = Memory.write s.buf i b := rfl
@[simp] theorem State.store_fc (s : State) (i : Nat) (b : Byte) : (s.store i b).fc = s.fc := rfl
@[simp] theorem State.store_st (s : State) (i : Nat) (b : Byte) : (s.store i b).st = s.st := rfl
@[simp] theorem State.store_acc (s : State) (i : Nat) (b : Byte) : (s.store i b).acc = s.acc := rfl
@[simp] theorem State.store_inputs (s : State) (i : Nat) (b : Byte) : (s.store i b).inputs = s.inputs := rfl
@[simp] theorem State.store_trace (s : State) (i : Nat) (b : Byte) : (s.store i b).trace = s.trace := rfl

@[simp] theorem State.setIdx_idx (s : State) (k : BitVec 7) : (s.setIdx k).idx = k := rfl
@[simp] theorem State.setIdx_buf (s : State) (k : BitVec 7) : (s.setIdx k).buf = s.buf := rfl
@[simp] theorem State.setIdx_fc (s : State) (k : BitVec 7) : (s.setIdx k).fc = s.fc := rfl
@[simp] theorem State.setIdx_st (s : State) (k : BitVec 7) : (s.setIdx k).st = s.st := rfl
@[simp] theorem State.setIdx_acc (s : State) (k : BitVec 7) : (s.setIdx k).acc = s.acc := rfl
@[simp] theorem State.setIdx_inputs (s : State) (k : BitVec 7) : (s.setIdx k).inputs = s.inputs := rfl
@[simp] theorem State.setIdx_trace (s : State) (k : BitVec 7) : (s.setIdx k).trace = s.trace := rfl

@[simp] theorem State.advanceIdx_idx (s : State) : (s.advanceIdx).idx = s.idx + 1 := rfl
@[simp] theorem State.advanceIdx_buf (s : State) : (s.advanceIdx).buf = s.buf := rfl
@[simp] theorem State.advanceIdx_fc (s : State) : (s.advanceIdx).fc = s.fc := rfl
@[simp] theorem State.advanceIdx_st (s : State) : (s.advanceIdx).st = s.st := rfl
@[simp] theorem State.advanceIdx_acc (s : State) : (s.advanceIdx).acc = s.acc := rfl
@[simp] theorem State.advanceIdx_inputs (s : State) : (s.advanceIdx).inputs = s.inputs := rfl
@[simp] theorem State.advanceIdx_trace (s : State) : (s.advanceIdx).trace = s.trace := rfl

@[simp] theorem State.setAcc_idx (s : State) (v : Byte) : (s.setAcc v).idx = s.idx := rfl
@[simp] theorem State.setAcc_buf (s : State) (v : Byte) : (s.setAcc v).buf = s.buf := rfl
@[simp] theorem State.setAcc_fc (s : State) (v : Byte) : (s.setAcc v).fc = s.fc := rfl
@[simp] theorem State.setAcc_st (s : State) (v : Byte) : (s.setAcc v).st = s.st := rfl
@[simp] theorem State.setAcc_acc (s : State) (v : Byte) : (s.setAcc v).acc = v := rfl
@[simp] theorem State.setAcc_inputs (s : State) (v : Byte) : (s.setAcc v).inputs = s.inputs := rfl
@[simp] theorem State.setAcc_trace (s : State) (v : Byte) : (s.setAcc v).trace = s.trace := rfl

@[simp] theorem State.addAcc_idx (s : State) (v : Byte) : (s.addAcc v).idx = s.idx := rfl
@[simp] theorem State.addAcc_buf (s : State) (v : Byte) : (s.addAcc v).buf = s.buf := rfl
@[simp] theorem State.addAcc_fc (s : State) (v : Byte) : (s.addAcc v).fc = s.fc := rfl
@[simp] theorem State.addAcc_st (s : State) (v : Byte) : (s.addAcc v).st = s.st := rfl
@[simp] theorem State.addAcc_acc (s : State) (v : Byte) : (s.addAcc v).acc = s.acc + v := rfl
@[simp] theorem State.addAcc_inputs (s : State) (v : Byte) : (s.addAcc v).inputs = s.inputs := rfl
@[simp] theorem State.addAcc_trace (s : State) (v : Byte) : (s.addAcc v).trace = s.trace := rfl

@[simp] theorem State.raiseError_idx (s : State) (e : Status) : (s.raiseError e).idx = 0 := rfl
@[simp] theorem State.raiseError_buf (s : State) (e : Status) : (s.raiseError e).buf = s.buf := rfl
@[simp] theorem State.raiseError_fc (s : State) (e : Status) : (s.raiseError e).fc = false := rfl
@[simp] theorem State.raiseError_st (s : State) (e : Status) : (s.raiseError e).st = e := rfl
@[simp] theorem State.raiseError_acc (s : State) (e : Status) : (s.raiseError e).acc = s.acc := rfl
@[simp] theorem State.raiseError_inputs (s : State) (e : Status) : (s.raiseError e).inputs = s.inputs := rfl
@[simp] theorem State.raiseError_trace (s : State) (e : Status) : (s.raiseError e).trace = s.trace := rfl

@[simp] theorem State.accept_idx (s : State) : (s.accept).idx = s.idx := rfl
@[simp] theorem State.accept_buf (s : State) : (s.accept).buf = s.buf := rfl
@[simp] theorem State.accept_fc (s : State) : (s.accept).fc = false := rfl
@[simp] theorem State.accept_st (s : State) : (s.accept).st = .PENDING := rfl
@[simp] theorem State.accept_acc (s : State) : (s.accept).acc = s.acc := rfl
@[simp] theorem State.accept_inputs (s : State) : (s.accept).inputs = s.inputs := rfl
@[simp] theorem State.accept_trace (s : State) : (s.accept).trace = s.trace := rfl

@[simp] theorem State.complete_idx (s : State) : (s.complete).idx = 0 := rfl
@[simp] theorem State.complete_buf (s : State) : (s.complete).buf = s.buf := rfl
@[simp] theorem State.complete_fc (s : State) : (s.complete).fc = true := rfl
@[simp] theorem State.complete_st (s : State) : (s.complete).st = .FRAME := rfl
@[simp] theorem State.complete_acc (s : State) : (s.complete).acc = s.acc := rfl
@[simp] theorem State.complete_inputs (s : State) : (s.complete).inputs = s.inputs := rfl
@[simp] theorem State.complete_trace (s : State) : (s.complete).trace = s.trace := rfl

@[simp] theorem State.observe_idx (s : State) (b : Byte) : (s.observe b).idx = s.idx := rfl
@[simp] theorem State.observe_buf (s : State) (b : Byte) : (s.observe b).buf = s.buf := rfl
@[simp] theorem State.observe_fc (s : State) (b : Byte) : (s.observe b).fc = s.fc := rfl
@[simp] theorem State.observe_st (s : State) (b : Byte) : (s.observe b).st = s.st := rfl
@[simp] theorem State.observe_acc (s : State) (b : Byte) : (s.observe b).acc = s.acc := rfl
@[simp] theorem State.observe_inputs (s : State) (b : Byte) : (s.observe b).inputs = s.inputs := rfl
@[simp] theorem State.observe_trace (s : State) (b : Byte) : (s.observe b).trace = ⟨b, s.st, if s.st = .FRAME then some s.frameValue else none⟩ :: s.trace := rfl

@[simp] theorem State.pushInput_idx (s : State) (x : Input) : (s.pushInput x).idx = s.idx := rfl
@[simp] theorem State.pushInput_buf (s : State) (x : Input) : (s.pushInput x).buf = s.buf := rfl
@[simp] theorem State.pushInput_fc (s : State) (x : Input) : (s.pushInput x).fc = s.fc := rfl
@[simp] theorem State.pushInput_st (s : State) (x : Input) : (s.pushInput x).st = s.st := rfl
@[simp] theorem State.pushInput_acc (s : State) (x : Input) : (s.pushInput x).acc = s.acc := rfl
@[simp] theorem State.pushInput_inputs (s : State) (x : Input) : (s.pushInput x).inputs = x :: s.inputs := rfl
@[simp] theorem State.pushInput_trace (s : State) (x : Input) : (s.pushInput x).trace = s.trace := rfl

@[simp] theorem State.lineUp_idx (s : State) (is : List Input) : (s.lineUp is).idx = s.idx := rfl
@[simp] theorem State.lineUp_buf (s : State) (is : List Input) : (s.lineUp is).buf = s.buf := rfl
@[simp] theorem State.lineUp_fc (s : State) (is : List Input) : (s.lineUp is).fc = s.fc := rfl
@[simp] theorem State.lineUp_st (s : State) (is : List Input) : (s.lineUp is).st = s.st := rfl
@[simp] theorem State.lineUp_acc (s : State) (is : List Input) : (s.lineUp is).acc = s.acc := rfl
@[simp] theorem State.lineUp_inputs (s : State) (is : List Input) : (s.lineUp is).inputs = is ++ s.inputs := rfl
@[simp] theorem State.lineUp_trace (s : State) (is : List Input) : (s.lineUp is).trace = s.trace := rfl
@[simp] theorem State.lineUp_nil (s : State) : s.lineUp [] = s := rfl

@[simp] theorem State.popInput_idx (s : State) : (s.popInput).idx = s.idx := rfl
@[simp] theorem State.popInput_buf (s : State) : (s.popInput).buf = s.buf := rfl
@[simp] theorem State.popInput_fc (s : State) : (s.popInput).fc = s.fc := rfl
@[simp] theorem State.popInput_st (s : State) : (s.popInput).st = s.st := rfl
@[simp] theorem State.popInput_acc (s : State) : (s.popInput).acc = s.acc := rfl
@[simp] theorem State.popInput_inputs (s : State) : (s.popInput).inputs = s.inputs.tail := rfl
@[simp] theorem State.popInput_trace (s : State) : (s.popInput).trace = s.trace := rfl

@[simp] theorem State.doReset_idx (s : State) : (s.doReset).idx = 0 := rfl
@[simp] theorem State.doReset_buf (s : State) : (s.doReset).buf = s.buf := rfl
@[simp] theorem State.doReset_fc (s : State) : (s.doReset).fc = false := rfl
@[simp] theorem State.doReset_st (s : State) : (s.doReset).st = .PENDING := rfl
@[simp] theorem State.doReset_acc (s : State) : (s.doReset).acc = 0 := rfl
@[simp] theorem State.doReset_inputs (s : State) : (s.doReset).inputs = s.inputs := rfl
@[simp] theorem State.doReset_trace (s : State) : (s.doReset).trace = s.trace := rfl

/-! What is read from the buffer depends on the buffer alone. -/

theorem State.byteAt_eq_read (s : State) (i : Nat) : s.byteAt i = Memory.read s.buf i := rfl

theorem State.byteAt_congr {s t : State} (h : s.buf = t.buf) (i : Nat) : s.byteAt i = t.byteAt i := by
  simp only [State.byteAt, h]

theorem State.bytes_congr {s t : State} (h : s.buf = t.buf) (lo hi : Nat) : s.bytes lo hi = t.bytes lo hi := by
  have : s.byteAt = t.byteAt := funext (State.byteAt_congr h)
  simp only [State.bytes, this]

theorem State.pos_congr {s t : State} (h : s.buf = t.buf) : s.pos = t.pos := by
  simp only [State.pos, State.len, State.byteAt_congr h]

theorem State.frameValue_congr {s t : State} (h : s.buf = t.buf) : s.frameValue = t.frameValue := by
  simp only [State.frameValue, State.pos_congr h, State.bytes_congr h]

end Sys2Proof.Machine
end

