-- ==== Sys2Proof/Laws/Memory.lean ====
section
/-! SUPPORT. The buffer as a memory: a write is read back, leaves every other index alone and keeps the canonical form;
ranges of bytes. -/

namespace Sys2Proof.Machine

theorem Memory.lookup_write_self (m : Memory) (a : Nat) (v : Byte) : Memory.lookup (Memory.write m a v) a = some v := by
  induction m with
  | nil => simp [Memory.write, Memory.lookup]
  | cons c m ih =>
    obtain ⟨b, w⟩ := c
    simp only [Memory.write]
    split
    · simp [Memory.lookup]
    · split
      · simp [Memory.lookup]
      · rw [Memory.lookup, if_neg (by omega)]; exact ih

theorem Memory.lookup_write_ne (m : Memory) {a a' : Nat} (v : Byte) (h : a' ≠ a) :
    Memory.lookup (Memory.write m a v) a' = Memory.lookup m a' := by
  induction m with
  | nil => simp [Memory.write, Memory.lookup, Ne.symm h]
  | cons c m ih =>
    obtain ⟨b, w⟩ := c
    simp only [Memory.write]
    split
    · simp [Memory.lookup, Ne.symm h]
    · split
      · next hb => subst hb; simp [Memory.lookup, Ne.symm h]
      · simp only [Memory.lookup, ih]

@[simp] theorem Memory.read_write_self (m : Memory) (a : Nat) (v : Byte) : Memory.read (Memory.write m a v) a = v := by
  simp [Memory.read, Memory.lookup_write_self]

theorem Memory.read_write_ne (m : Memory) {a a' : Nat} (v : Byte) (h : a' ≠ a) :
    Memory.read (Memory.write m a v) a' = Memory.read m a' := by
  simp [Memory.read, Memory.lookup_write_ne m v h]

theorem Memory.wf_nil : Memory.wf [] := by simp [Memory.wf]

theorem Memory.mem_write {m : Memory} {a : Nat} {v : Byte} {c : Host.Cell} (h : c ∈ Memory.write m a v) :
    c = (a, v) ∨ c ∈ m := by
  induction m with
  | nil => simpa [Memory.write] using h
  | cons d m ih =>
    obtain ⟨b, w⟩ := d
    simp only [Memory.write] at h
    split at h
    · simpa using h
    · split at h
      · simp only [List.mem_cons] at h ⊢; tauto
      · simp only [List.mem_cons] at h ⊢
        rcases h with h | h
        · exact .inr (.inl h)
        · rcases ih h with h | h <;> tauto

theorem Memory.wf_write {m : Memory} {a : Nat} (v : Byte) (h : Memory.wf m) (ha : a < Config.CAP) :
    Memory.wf (Memory.write m a v) := by
  refine ⟨?_, fun c hc => ?_⟩
  · have hp := h.1
    clear h
    induction m with
    | nil => simp [Memory.write]
    | cons d m ih =>
      obtain ⟨b, w⟩ := d
      obtain ⟨h1, h2⟩ := List.pairwise_cons.1 hp
      simp only [Memory.write]
      split
      · next hab =>
        refine List.pairwise_cons.2 ⟨fun c hc => ?_, hp⟩
        rcases List.mem_cons.1 hc with rfl | hc
        · exact hab
        · exact Nat.lt_trans hab (h1 c hc)
      · split
        · next hab => subst hab; exact List.pairwise_cons.2 ⟨h1, h2⟩
        · refine List.pairwise_cons.2 ⟨fun c hc => ?_, ih h2⟩
          rcases Memory.mem_write hc with rfl | hc
          · show b < a; omega
          · exact h1 c hc
  · rcases Memory.mem_write hc with rfl | hc
    · exact ha
    · exact h.2 c hc

/-! Through the state. -/

@[simp] theorem State.byteAt_store_self (s : State) (i : Nat) (b : Byte) : (s.store i b).byteAt i = b :=
  Memory.read_write_self _ _ _

theorem State.byteAt_store_ne (s : State) {i j : Nat} (b : Byte) (h : j ≠ i) : (s.store i b).byteAt j = s.byteAt j :=
  Memory.read_write_ne _ _ h

theorem State.bytes_length (s : State) (n : Nat) (h : n ≤ Config.CAP) : (s.bytes 0 n).length = n := by
  simp [State.bytes, Nat.min_eq_left h]

theorem State.bytes_eq_range (s : State) {n : Nat} (h : n ≤ Config.CAP) :
    s.bytes 0 n = (List.range n).map s.byteAt := by
  simp [State.bytes, Nat.min_eq_left h, List.range_eq_range']

theorem State.bytes_zero (s : State) : s.bytes 0 0 = [] := by simp [State.bytes]

theorem State.bytes_succ (s : State) {n : Nat} (h : n + 1 ≤ Config.CAP) :
    s.bytes 0 (n + 1) = s.bytes 0 n ++ [s.byteAt n] := by
  rw [s.bytes_eq_range h, s.bytes_eq_range (by omega), List.range_succ, List.map_append]
  rfl

/-- Two states with the same bytes below `n` have the same range `BUF[0..n)`. -/
theorem State.bytes_ext {s t : State} {n : Nat} (h : ∀ i < n, s.byteAt i = t.byteAt i) : s.bytes 0 n = t.bytes 0 n := by
  simp only [State.bytes, Nat.sub_zero, ← List.range_eq_range']
  refine List.map_congr_left fun i hi => h i ?_
  have := List.mem_range.1 hi
  omega

theorem State.bytes_store_above (s : State) {n i : Nat} (b : Byte) (h : n ≤ i) : (s.store i b).bytes 0 n = s.bytes 0 n :=
  State.bytes_ext fun j hj => s.byteAt_store_ne b (by omega)

theorem State.bytes_getD (s : State) {n i : Nat} (hn : n ≤ Config.CAP) (hi : i < n) (d : Byte) :
    (s.bytes 0 n).getD i d = s.byteAt i := by
  rw [s.bytes_eq_range hn]
  simp [List.getD, hi]

end Sys2Proof.Machine
end

