-- ==== Sys2Proof/Laws/Codec.lean ====
section
/-! SUPPORT. The checksum as a running sum, and well-formed frames read field by field. -/

namespace Sys2Proof.Machine

@[simp] theorem checksum_nil : checksum [] = 0 := rfl

theorem checksum_toNat (s : List Byte) : (checksum s).toNat = (s.map BitVec.toNat).sum % 256 := by
  simp [checksum]

theorem checksum_cons (b : Byte) (s : List Byte) : checksum (b :: s) = b + checksum s := by
  apply BitVec.eq_of_toNat_eq
  simp [checksum]

theorem checksum_append (s t : List Byte) : checksum (s ++ t) = checksum s + checksum t := by
  induction s with
  | nil => simp
  | cons b s ih => rw [List.cons_append, checksum_cons, checksum_cons, ih, BitVec.add_assoc]

theorem checksum_snoc (s : List Byte) (b : Byte) : checksum (s ++ [b]) = checksum s + b := by
  rw [checksum_append, checksum_cons, checksum_nil]; simp

theorem verify_iff (s : List Byte) (c : Byte) : verify s c = true ↔ checksum s = c := by simp [verify]

theorem frameOk_iff (F : List Byte) : frameOk F = true ↔ F.getLast? = some (checksum F.dropLast) := by simp [frameOk]

/-- A frame is right at its checksum exactly if it is a byte sequence with its checksum appended. -/
theorem frameOk_snoc (s : List Byte) (b : Byte) : frameOk (s ++ [b]) = true ↔ b = checksum s := by
  simp [frameOk]

theorem wellFormedFrame_iff (F : List Byte) : wellFormedFrame F = true ↔
    6 ≤ F.length ∧ F.getD 0 0 = Config.HDR0 ∧ F.getD 1 0 = Config.HDR1 ∧ F.length = (F.getD 4 0).toNat + 6 ∧
      frameOk F = true := by
  simp only [wellFormedFrame, Bool.and_eq_true, decide_eq_true_eq, Config.MINFRAME, Config.OVERHEAD]
  tauto

theorem acceptableFrame_iff (F : List Byte) :
    acceptableFrame F = true ↔ wellFormedFrame F = true ∧ (F.getD 4 0).toNat ≤ Config.MAXLEN := by
  simp only [acceptableFrame, Bool.and_eq_true, decide_eq_true_eq]

/-- A well-formed frame, split: the five bytes of its prefix, its content, its checksum. -/
theorem wellFormedFrame_split {F : List Byte} (h : wellFormedFrame F = true) :
    ∃ c a n content, F = [Config.HDR0, Config.HDR1, c, a, n] ++ content ++
        [checksum ([Config.HDR0, Config.HDR1, c, a, n] ++ content)] ∧ content.length = n.toNat := by
  obtain ⟨h6, h0, h1, hl, hk⟩ := (wellFormedFrame_iff F).1 h
  match F, h6, h0, h1, hl, hk with
  | [x0, x1, c, a, n], h6, _, _, _, _ => simp at h6
  | x0 :: x1 :: c :: a :: n :: y :: r, _, h0, h1, hl, hk =>
    simp only [List.getD_cons_zero, List.getD_cons_succ] at h0 h1 hl
    subst h0 h1
    rcases List.eq_nil_or_concat (y :: r) with hr | ⟨content, k, hr⟩
    · simp at hr
    · rw [List.concat_eq_append] at hr
      rw [hr] at hk hl ⊢
      refine ⟨c, a, n, content, ?_, ?_⟩
      · have : Config.HDR0 :: Config.HDR1 :: c :: a :: n :: (content ++ [k]) =
            ([Config.HDR0, Config.HDR1, c, a, n] ++ content) ++ [k] := by simp
        rw [this, frameOk_snoc] at hk
        rw [this, hk]
      · simp at hl; omega

end Sys2Proof.Machine
end

