-- ==== Sys2Proof/Laws/Push.lean ====
section
/-! SUPPORT. What a PUSH can do, said once: the dispatch class by cursor, the four outcomes of `pushByte`, and what every
PUSH leaves alone. -/

namespace Sys2Proof.Machine

/-! ## The dispatch class by cursor (R61) -/

theorem State.class_idx0 {s : State} (h : s.idx.toNat = 0) : s.dispatchClass = .expectHeader0 := by
  simp [State.dispatchClass, h]

theorem State.class_idx1 {s : State} (h : s.idx.toNat = 1) : s.dispatchClass = .expectHeader1 := by
  simp [State.dispatchClass, h]

theorem State.class_idx2 {s : State} (h : s.idx.toNat = 2) : s.dispatchClass = .expectCommand := by
  simp [State.dispatchClass, h]

theorem State.class_idx3 {s : State} (h : s.idx.toNat = 3) : s.dispatchClass = .expectAlgo := by
  simp [State.dispatchClass, h]

theorem State.class_idx4 {s : State} (h : s.idx.toNat = 4) : s.dispatchClass = .expectLength := by
  simp [State.dispatchClass, h]

theorem State.class_body {s : State} (h : 5 ≤ s.idx.toNat) :
    s.dispatchClass = if s.idx.toNat < s.pos then .bodyContent else .bodyChecksum := by
  unfold State.dispatchClass
  split <;> first | omega | rfl

theorem State.class_content {s : State} (h : 5 ≤ s.idx.toNat) (hp : s.idx.toNat < s.pos) :
    s.dispatchClass = .bodyContent := by
  rw [State.class_body h, if_pos hp]

theorem State.class_checksum {s : State} (h : 5 ≤ s.idx.toNat) (hp : s.pos ≤ s.idx.toNat) :
    s.dispatchClass = .bodyChecksum := by
  rw [State.class_body h, if_neg (by omega)]

/-- The cursor a class stands for. -/
def DispatchClassMeans (s : State) : DispatchClass → Prop
  | .expectHeader0 => s.idx.toNat = 0
  | .expectHeader1 => s.idx.toNat = 1
  | .expectCommand => s.idx.toNat = 2
  | .expectAlgo => s.idx.toNat = 3
  | .expectLength => s.idx.toNat = 4
  | .bodyContent => 5 ≤ s.idx.toNat ∧ s.idx.toNat < s.pos
  | .bodyChecksum => 5 ≤ s.idx.toNat ∧ s.pos ≤ s.idx.toNat

theorem State.class_means (s : State) : DispatchClassMeans s s.dispatchClass := by
  rcases (by omega : s.idx.toNat = 0 ∨ s.idx.toNat = 1 ∨ s.idx.toNat = 2 ∨ s.idx.toNat = 3 ∨ s.idx.toNat = 4 ∨
    5 ≤ s.idx.toNat) with h | h | h | h | h | h
  · rw [State.class_idx0 h]; exact h
  · rw [State.class_idx1 h]; exact h
  · rw [State.class_idx2 h]; exact h
  · rw [State.class_idx3 h]; exact h
  · rw [State.class_idx4 h]; exact h
  · rw [State.class_body h]
    split
    · exact ⟨h, ‹_›⟩
    · exact ⟨h, by omega⟩

/-! ## The observation -/

theorem State.statuses_observe (s : State) (b : Byte) : (s.observe b).statuses = s.statuses ++ [s.st] := by
  simp [State.statuses]

theorem State.frameOutput_observe (s : State) (b : Byte) :
    (s.observe b).frameOutput = s.frameOutput ++ if s.st = .FRAME then [s.frameValue] else [] := by
  simp only [State.frameOutput, State.observe_trace]
  split <;> simp [*]

theorem State.statuses_congr {s t : State} (h : s.trace = t.trace) : s.statuses = t.statuses := by
  simp only [State.statuses, h]

theorem State.frameOutput_congr {s t : State} (h : s.trace = t.trace) : s.frameOutput = t.frameOutput := by
  simp only [State.frameOutput, h]

/-! ## The four outcomes of a PUSH -/

/-- The byte is accepted and no frame is complete yet: the conditions of H0.HIT, H1.HIT, CMD, ALG, LEN.OK and BODY. -/
def State.Accepts (s : State) (b : Byte) : Prop :=
  (s.idx.toNat = 0 → b = Config.HDR0) ∧ (s.idx.toNat = 1 → b = Config.HDR1) ∧
    (s.idx.toNat = 4 → b.toNat ≤ Config.MAXLEN) ∧ (5 ≤ s.idx.toNat → s.idx.toNat < s.pos)

/-- What all six accepting transitions do. -/
def State.accepted (s : State) (b : Byte) : State := (s.store s.idx.toNat b).advanceIdx.accept.observe b

/-- The status is one of the three framing errors, and this is its cause. -/
def State.Rejects (s : State) (b : Byte) (e : Status) : Prop :=
  (e = .E_HDR0 ∧ s.idx.toNat = 0 ∧ b ≠ Config.HDR0) ∨ (e = .E_HDR1 ∧ s.idx.toNat = 1 ∧ b ≠ Config.HDR1) ∨
    (e = .E_LEN ∧ s.idx.toNat = 4 ∧ Config.MAXLEN < b.toNat)

theorem State.idx_eq_of_toNat {s : State} {k : Nat} (h : s.idx.toNat = k) : s.idx = BitVec.ofNat 7 k := by
  rw [← h, BitVec.ofNat_toNat, BitVec.setWidth_eq]

theorem State.advanceIdx_eq_setIdx {s : State} {k : Nat} (h : s.idx.toNat = k) :
    s.advanceIdx = s.setIdx (BitVec.ofNat 7 (k + 1)) := by
  simp only [State.advanceIdx, State.setIdx]
  congr 1
  apply BitVec.eq_of_toNat_eq
  rw [BitVec.toNat_add, h, BitVec.toNat_ofNat]
  rfl

theorem State.pushByte_accepts {s : State} {b : Byte} (h : s.Accepts b) : s.pushByte b = s.accepted b := by
  obtain ⟨h0, h1, h4, h5⟩ := h
  unfold State.pushByte State.accepted
  have key : ∀ k, s.idx.toNat = k → (s.store s.idx.toNat b).advanceIdx =
      (s.store k b).setIdx (BitVec.ofNat 7 (k + 1)) := fun k hk => by
    rw [State.advanceIdx_eq_setIdx (k := k) (by simpa using hk), hk]
  rcases (by omega : s.idx.toNat = 0 ∨ s.idx.toNat = 1 ∨ s.idx.toNat = 2 ∨ s.idx.toNat = 3 ∨ s.idx.toNat = 4 ∨
    5 ≤ s.idx.toNat) with h | h | h | h | h | h
  · rw [State.class_idx0 h, key 0 h]; obtain rfl := h0 h; rfl
  · rw [State.class_idx1 h, key 1 h]; obtain rfl := h1 h; rfl
  · rw [State.class_idx2 h, key 2 h]; rfl
  · rw [State.class_idx3 h, key 3 h]; rfl
  · rw [State.class_idx4 h, key 4 h]
    have := h4 h
    simp only [Config.OVERHEAD, Config.CAP, Config.MAXLEN] at this ⊢
    rw [if_pos (by omega)]; rfl
  · rw [State.class_content h (h5 h)]; rfl

theorem State.pushByte_rejects {s : State} {b : Byte} {e : Status} (h : s.Rejects b e) :
    s.pushByte b = (s.raiseError e).observe b := by
  unfold State.pushByte
  rcases h with ⟨rfl, h, hb⟩ | ⟨rfl, h, hb⟩ | ⟨rfl, h, hb⟩
  · rw [State.class_idx0 h]; simp only [if_neg hb]; rfl
  · rw [State.class_idx1 h]; simp only [if_neg hb]; rfl
  · rw [State.class_idx4 h]
    simp only [Config.OVERHEAD, Config.CAP, Config.MAXLEN] at hb ⊢
    rw [if_neg (by omega)]; rfl

theorem State.pushByte_chkOk {s : State} {b : Byte} (h : 5 ≤ s.idx.toNat) (hp : s.pos ≤ s.idx.toNat)
    (hb : b = s.bodySum) : s.pushByte b = s.chkOk b := by
  unfold State.pushByte
  rw [State.class_checksum h hp]
  simp only [if_pos hb]

theorem State.pushByte_chkBad {s : State} {b : Byte} (h : 5 ≤ s.idx.toNat) (hp : s.pos ≤ s.idx.toNat)
    (hb : b ≠ s.bodySum) : s.pushByte b = s.chkBad b := by
  unfold State.pushByte
  rw [State.class_checksum h hp]
  simp only [if_neg hb]

/-- The inversion lemma: every PUSH accepts its byte, rejects it with a framing error, completes a frame or drops one. -/
theorem State.pushByte_cases (s : State) (b : Byte) :
    (s.Accepts b ∧ s.pushByte b = s.accepted b) ∨
    (∃ e, s.Rejects b e ∧ s.pushByte b = (s.raiseError e).observe b) ∨
    (5 ≤ s.idx.toNat ∧ s.pos ≤ s.idx.toNat ∧ b = s.bodySum ∧ s.pushByte b = s.chkOk b) ∨
    (5 ≤ s.idx.toNat ∧ s.pos ≤ s.idx.toNat ∧ b ≠ s.bodySum ∧ s.pushByte b = s.chkBad b) := by
  by_cases ha : s.Accepts b
  · exact .inl ⟨ha, State.pushByte_accepts ha⟩
  by_cases hr : ∃ e, s.Rejects b e
  · obtain ⟨e, he⟩ := hr
    exact .inr (.inl ⟨e, he, State.pushByte_rejects he⟩)
  have h5 : 5 ≤ s.idx.toNat ∧ s.pos ≤ s.idx.toNat := by
    by_contra hn
    apply ha
    refine ⟨fun h => ?_, fun h => ?_, fun h => ?_, fun h => by omega⟩
    · by_contra hb; exact hr ⟨_, .inl ⟨rfl, h, hb⟩⟩
    · by_contra hb; exact hr ⟨_, .inr (.inl ⟨rfl, h, hb⟩)⟩
    · by_contra hb; exact hr ⟨_, .inr (.inr ⟨rfl, h, by omega⟩)⟩
  by_cases hb : b = s.bodySum
  · exact .inr (.inr (.inl ⟨h5.1, h5.2, hb, State.pushByte_chkOk h5.1 h5.2 hb⟩))
  · exact .inr (.inr (.inr ⟨h5.1, h5.2, hb, State.pushByte_chkBad h5.1 h5.2 hb⟩))

theorem State.Rejects.ne_frame {s : State} {b : Byte} {e : Status} (h : s.Rejects b e) : e ≠ .FRAME ∧ e ≠ .PENDING := by
  rcases h with ⟨rfl, _⟩ | ⟨rfl, _⟩ | ⟨rfl, _⟩ <;> simp

/-! ## What every PUSH leaves alone (R30) -/

@[simp] theorem State.pushByte_acc (s : State) (b : Byte) : (s.pushByte b).acc = s.acc := by
  unfold State.pushByte
  repeat' split
  all_goals rfl

@[simp] theorem State.pushByte_inputs (s : State) (b : Byte) : (s.pushByte b).inputs = s.inputs := by
  unfold State.pushByte
  repeat' split
  all_goals rfl

/-- A PUSH does not look at the inputs. -/
theorem State.pushByte_setInputs (s : State) (b : Byte) (is : List Input) :
    State.pushByte { s with inputs := is } b = { s.pushByte b with inputs := is } := by
  have hc : State.dispatchClass { s with inputs := is } = s.dispatchClass := rfl
  have hs : State.bodySum { s with inputs := is } = s.bodySum := rfl
  unfold State.pushByte
  rw [hc, hs]
  cases s.dispatchClass <;> dsimp only <;> (try split) <;> rfl

/-- Every other index of the buffer reads as before. -/
theorem State.pushByte_byteAt_ne (s : State) (b : Byte) {a : Nat} (h : a ≠ s.idx.toNat) :
    (s.pushByte b).byteAt a = s.byteAt a := by
  obtain ⟨_, e⟩ | ⟨_, _, e⟩ | ⟨_, _, _, e⟩ | ⟨_, _, _, e⟩ := State.pushByte_cases s b <;> rw [e]
  · exact s.byteAt_store_ne b h
  · rfl
  · exact s.byteAt_store_ne b h
  · exact s.byteAt_store_ne b h

/-- The observation grows by one event, of the pushed byte and the status produced. -/
theorem State.pushByte_trace (s : State) (b : Byte) :
    ∃ d, (s.pushByte b).trace = ⟨b, (s.pushByte b).st, d⟩ :: s.trace := by
  obtain ⟨_, e⟩ | ⟨_, _, e⟩ | ⟨_, _, _, e⟩ | ⟨_, _, _, e⟩ := State.pushByte_cases s b <;> rw [e] <;> exact ⟨_, rfl⟩

/-! ## FEED -/

@[simp] theorem State.feed_nil (s : State) : s.feed [] = s := rfl

@[simp] theorem State.feed_cons (s : State) (b : Byte) (bs : List Byte) : s.feed (b :: bs) = (s.pushByte b).feed bs := rfl

theorem State.feed_setInputs (s : State) (bs : List Byte) (is : List Input) :
    State.feed { s with inputs := is } bs = { s.feed bs with inputs := is } := by
  induction bs generalizing s with
  | nil => rfl
  | cons b bs ih => rw [State.feed_cons, State.feed_cons, State.pushByte_setInputs, ih]

theorem State.feed_append (s : State) (xs ys : List Byte) : s.feed (xs ++ ys) = (s.feed xs).feed ys := by
  simp [State.feed, List.foldl_append]

theorem State.feed_snoc (s : State) (xs : List Byte) (b : Byte) : s.feed (xs ++ [b]) = (s.feed xs).pushByte b := by
  rw [State.feed_append]; rfl

@[simp] theorem State.feed_acc (s : State) (bs : List Byte) : (s.feed bs).acc = s.acc := by
  induction bs generalizing s with
  | nil => rfl
  | cons b bs ih => rw [State.feed_cons, ih, State.pushByte_acc]

@[simp] theorem State.feed_inputs (s : State) (bs : List Byte) : (s.feed bs).inputs = s.inputs := by
  induction bs generalizing s with
  | nil => rfl
  | cons b bs ih => rw [State.feed_cons, ih, State.pushByte_inputs]

end Sys2Proof.Machine
end

