-- ==== Sys2Proof/Laws/Step.lean ====
section
/-! SUPPORT. Runs of instructions and steps as functions of the state. -/

namespace Sys2Proof.Machine

@[simp] theorem exec_reset (s : State) : exec .reset s = .next s.doReset := rfl
@[simp] theorem exec_push (b : Byte) (s : State) : exec (.push b) s = .next (s.pushByte b) := rfl
@[simp] theorem exec_ckClr (s : State) : exec .ckClr s = .next (s.setAcc 0) := rfl
@[simp] theorem exec_ckAdd (b : Byte) (s : State) : exec (.ckAdd b) s = .next (s.addAcc b) := rfl

@[simp] theorem runInstrs_nil (s : State) : runInstrs [] s = .next s := rfl

theorem runInstrs_cons_next {i : Instr} {is : List Instr} {s t : State} (h : exec i s = .next t) :
    runInstrs (i :: is) s = runInstrs is t := by
  simp only [runInstrs, h]

theorem runInstrs_single (i : Instr) (s : State) : runInstrs [i] s = exec i s := by
  simp only [runInstrs]
  split <;> simp [*]

theorem runInstrs_append_next {is js : List Instr} {s t : State} (h : runInstrs is s = .next t) :
    runInstrs (is ++ js) s = runInstrs js t := by
  induction is generalizing s with
  | nil => cases h; rfl
  | cons i is ih =>
    simp only [List.cons_append, runInstrs] at h ⊢
    split at h <;> simp_all

/-- A run of PUSH is FEED. -/
theorem runInstrs_pushes (bs : List Byte) (s : State) : runInstrs (bs.map .push) s = .next (s.feed bs) := by
  induction bs generalizing s with
  | nil => rfl
  | cons b bs ih => rw [List.map_cons, runInstrs_cons_next (exec_push b s), ih, State.feed_cons]

/-- An instruction that is no transition row: an action or a frame prefix.  A step runs no other. -/
def Instr.standsAlone : Instr → Bool
  | .h0Hit | .h0Miss _ | .h1Hit | .h1Miss _ | .cmd _ | .alg _ | .lenOk _ | .lenOvf _ | .body _ | .chkOk _
  | .chkBad _ => false
  | _ => true

/-- What a FRAME.command row does: the `PUSH` of its first byte, with the later four lined up. -/
theorem exec_commandInstr {c a n : Byte} {i : Instr} (h : commandInstr c a n = some i) (s : State) :
    exec i s = .next (s.receivePrefix c a n) := by
  simp only [commandInstr, Option.map_eq_some_iff] at h
  obtain ⟨row, hrow, rfl⟩ := h
  have hm := List.mem_of_find?_eq_some hrow
  have hk : row.1 = c := by simpa using List.find?_some hrow
  subst hk
  simp only [commandTable, List.cons_append, List.nil_append, List.mem_cons, List.not_mem_nil, or_false] at hm
  rcases hm with rfl | rfl | rfl | rfl | rfl | rfl | rfl | rfl | rfl | rfl | rfl | rfl | rfl | rfl | rfl | rfl | rfl |
    rfl | rfl | rfl <;> rfl

/-- What an instruction that is no transition row does: RESET, a write of `ACC`, or one PUSH, after which the inputs may be
others. -/
theorem exec_standsAlone {i : Instr} (h : Instr.standsAlone i = true) (s : State) :
    exec i s = .next s.doReset ∨ (∃ v, exec i s = .next (s.setAcc v)) ∨
      ∃ b is, exec i s = .next { s.pushByte b with inputs := is } := by
  cases i with
  | reset => exact .inl rfl
  | push b => exact .inr (.inr ⟨b, _, rfl⟩)
  | ckClr => exact .inr (.inl ⟨0, rfl⟩)
  | ckAdd b => exact .inr (.inl ⟨s.acc + b, rfl⟩)
  | _ => first | (simp [Instr.standsAlone] at h; done) | exact .inr (.inr ⟨_, _, rfl⟩)

/-- The strobes of an edge bit by bit (R60). -/
theorem actionsOf_bits (p : Ports) : actionsOf p =
    if p.strobes.getLsbD 3 = true then [.reset]
    else (if p.strobes.getLsbD 2 = true then [.push p.din] else []) ++
      (if p.strobes.getLsbD 1 = true then [.ckClr]
       else if p.strobes.getLsbD 0 = true then [.ckAdd p.ckDin] else []) := by
  have key : ∀ a : BitVec 4, ((a &&& 0x8#4 = 0x8#4) ↔ a.getLsbD 3 = true) ∧
      (¬ a.getLsbD 3 = true → ((a &&& 0xC#4 = 0x4#4) ↔ a.getLsbD 2 = true) ∧
        ((a &&& 0xA#4 = 0x2#4) ↔ a.getLsbD 1 = true) ∧
        (¬ a.getLsbD 1 = true → ((a &&& 0xB#4 = 0x1#4) ↔ a.getLsbD 0 = true))) := by decide
  obtain ⟨k3, k⟩ := key p.strobes
  unfold actionsOf
  by_cases h3 : p.strobes.getLsbD 3 = true
  · rw [if_pos (k3.2 h3), if_pos h3]
  · obtain ⟨k2, k1, k0⟩ := k h3
    rw [if_neg (fun h => h3 (k3.1 h)), if_neg h3]
    simp only [k2, k1]
    by_cases h1 : p.strobes.getLsbD 1 = true
    · simp only [if_pos h1]
    · simp only [if_neg h1, k0 h1]

theorem actionsOf_standsAlone (p : Ports) : ∀ i ∈ actionsOf p, Instr.standsAlone i = true := by
  intro i hi
  unfold actionsOf at hi
  split at hi
  · simp at hi; subst hi; rfl
  · rcases List.mem_append.1 hi with hi | hi
    · split at hi <;> simp at hi
      subst hi; rfl
    · split at hi
      · simp at hi; subst hi; rfl
      · split at hi <;> simp at hi
        subst hi; rfl

theorem commandInstr_standsAlone {c a n : Byte} {i : Instr} (h : commandInstr c a n = some i) :
    Instr.standsAlone i = true := by
  simp only [commandInstr, Option.map_eq_some_iff] at h
  obtain ⟨row, hrow, rfl⟩ := h
  have hm := List.mem_of_find?_eq_some hrow
  simp only [commandTable, List.cons_append, List.nil_append, List.mem_cons, List.not_mem_nil, or_false] at hm
  rcases hm with rfl | rfl | rfl | rfl | rfl | rfl | rfl | rfl | rfl | rfl | rfl | rfl | rfl | rfl | rfl | rfl | rfl |
    rfl | rfl | rfl <;> rfl

theorem decodeFrame_standsAlone {bs : List Byte} {is : List Instr} (h : decodeFrame bs = .ok is) :
    ∀ i ∈ is, Instr.standsAlone i = true := by
  unfold decodeFrame at h
  split at h
  · split at h
    · split at h
      · next hc => cases h; intro i hi; simp at hi; subst hi; exact commandInstr_standsAlone hc
      · cases h
    · cases h
  · cases h

theorem decodeInput_standsAlone (x : Input) : ∀ i ∈ decodeInput x, Instr.standsAlone i = true := by
  cases x with
  | edge p => exact actionsOf_standsAlone p
  | chunk b bs =>
    simp only [decodeInput]
    split
    · next h => exact decodeFrame_standsAlone h
    · intro i hi
      rw [List.mem_singleton.1 hi]
      rfl

/-- An invariant of the block and its observation (not of the inputs) kept by RESET, by any write of `ACC` and by any PUSH
is kept by every run of such instructions. -/
theorem runInstrs_keeps {P : State → Prop} (hi : ∀ s is, P s → P { s with inputs := is }) (hr : ∀ s, P s → P s.doReset)
    (ha : ∀ s v, P s → P (s.setAcc v)) (hp : ∀ s b, P s → P (s.pushByte b)) {is : List Instr}
    (h : ∀ i ∈ is, Instr.standsAlone i = true) (s : State) (hs : P s) : ∃ t, runInstrs is s = .next t ∧ P t := by
  induction is generalizing s with
  | nil => exact ⟨s, rfl, hs⟩
  | cons i is ih =>
    have his : ∀ j ∈ is, Instr.standsAlone j = true := fun j hj => h j (List.mem_cons_of_mem _ hj)
    rcases exec_standsAlone (h i List.mem_cons_self) s with e | ⟨v, e⟩ | ⟨b, xs, e⟩ <;> rw [runInstrs_cons_next e]
    · exact ih his _ (hr s hs)
    · exact ih his _ (ha s v hs)
    · exact ih his _ (hi _ _ (hp s b hs))

theorem step_nil {s : State} (h : s.inputs = []) : step s = .next s := by
  simp only [step, stepInput, h]

theorem step_cons {s : State} {x : Input} {rest : List Input} (h : s.inputs = x :: rest) :
    step s = runInstrs (decodeInput x) { s with inputs := x.remainder ++ rest } := by
  simp only [step, stepInput, h, State.popInput, State.lineUp, List.tail_cons]

/-- A step at a clock edge performs the actions of its strobes. -/
theorem step_edge {s : State} {p : Ports} {rest : List Input} (h : s.inputs = .edge p :: rest) :
    step s = runInstrs (actionsOf p) { s with inputs := rest } := step_cons h

/-- A step on a chunk is one PUSH, of the first byte, also where the chunk decodes to a command row; the later bytes are left
for the steps to come. -/
theorem step_chunk {s : State} {b : Byte} {bs : List Byte} {rest : List Input} (h : s.inputs = .chunk b bs :: rest) :
    step s = .next (State.pushByte { s with inputs := Input.ofBytes bs ++ rest } b) := by
  rw [step_cons h]
  simp only [decodeInput, Input.remainder]
  split
  · next is hd =>
    unfold decodeFrame at hd
    split at hd
    · next h0 h1 c a n hl =>
      split at hd
      · next hh =>
        split at hd
        · next i hc =>
          cases hd
          obtain ⟨rfl, rfl⟩ := hl
          obtain ⟨rfl, rfl⟩ := hh
          rw [runInstrs_single, exec_commandInstr hc]
          simp only [State.receivePrefix, State.pushInput, State.pushByte_setInputs, Input.ofBytes, List.nil_append,
            List.cons_append]
        · cases hd
      · cases hd
    · cases hd
  · rw [runInstrs_single, exec_push]

/-- An invariant of the block and its observation (not of the inputs) kept by RESET, by any write of `ACC` and by any PUSH
is kept by every step, and every step has a next state. -/
theorem step_keeps {P : State → Prop} (hi : ∀ s is, P s → P { s with inputs := is }) (hr : ∀ s, P s → P s.doReset)
    (ha : ∀ s v, P s → P (s.setAcc v)) (hp : ∀ s b, P s → P (s.pushByte b)) (s : State) (hs : P s) :
    ∃ t, step s = .next t ∧ P t := by
  match h : s.inputs with
  | [] => exact ⟨s, step_nil h, hs⟩
  | x :: rest =>
    rw [step_cons h]
    exact runInstrs_keeps hi hr ha hp (decodeInput_standsAlone x) _ (hi s _ hs)

end Sys2Proof.Machine
end

