-- ==== Sys2Proof/Laws/Decode.lean ====
section
/-! SUPPORT. Bytes of a number, the decoder by table numbering, and the placing of a word. -/

namespace Sys2Proof

theorem byteOf_first (b : Byte) (w : Nat) : byteOf (b.toNat + 256 * w) 0 = b := by
  apply BitVec.eq_of_toNat_eq
  have := b.isLt
  simp [byteOf]
  omega

theorem byteOf_rest (b : Byte) (w k : Nat) : byteOf (b.toNat + 256 * w) (k + 1) = byteOf w k := by
  have := b.isLt
  unfold byteOf
  rw [show 8 * (k + 1) = 8 + 8 * k by ring, Nat.shiftRight_add, Nat.shiftRight_eq_div_pow _ 8,
    show (b.toNat + 256 * w) / 2 ^ 8 = w by omega]

/-- The decoder by table numbering, cut into its three parts. -/
theorem decodeTableWord_of {nbits w : Nat} {f : Format} {bytes : List Byte} {i : Instr} {is : List Instr}
    (hf : formatOfWidth nbits = some f) (hb : wordBytes f w = bytes) (hd : decode f bytes = .ok (i :: is)) :
    decodeTableWord nbits w = some i := by
  unfold decodeTableWord
  simp only [hf, hb, hd, List.head?_cons]

/-- A number that reads as a frame prefix in the table's numbering is read so. -/
theorem frameBytesOf_table {w : Nat} {c a n : Byte} (h : frameBytesTable w = prefixBytes c a n) :
    frameBytesOf w = prefixBytes c a n := by
  have h' := h
  unfold frameBytesTable prefixBytes at h'
  simp only [List.cons.injEq] at h'
  unfold frameBytesOf
  rw [if_pos ⟨h'.1, h'.2.1⟩, h]

/-- The decoder on a frame prefix reads the row of its command byte (R50). -/
theorem decodeFrame_prefixBytes (c a n : Byte) :
    decodeFrame (prefixBytes c a n) =
      match commandInstr c a n with
      | some i => .ok [i]
      | none => .error .unlistedCommand := by
  cases h : commandInstr c a n <;> simp only [prefixBytes, decodeFrame, h, and_self, if_true]

namespace Machine

/-- The checksum compared with, after a five-byte prefix with length 0. -/
theorem State.bodySum_emptyContent {s : State} {m : Memory} {a b c d : Byte}
    (h : s.buf = Memory.write (Memory.write (Memory.write (Memory.write (Memory.write m 0 a) 1 b) 2 c) 3 d) 4 0) :
    s.bodySum = a + b + c + d := by
  have h4 : s.byteAt 4 = 0 := by simp [State.byteAt, h]
  have h3 : s.byteAt 3 = d := by simp [State.byteAt, h, Memory.read_write_ne]
  have h2 : s.byteAt 2 = c := by simp [State.byteAt, h, Memory.read_write_ne]
  have h1 : s.byteAt 1 = b := by simp [State.byteAt, h, Memory.read_write_ne]
  have h0 : s.byteAt 0 = a := by simp [State.byteAt, h, Memory.read_write_ne]
  have hp : s.pos = 5 := by simp [State.pos, State.len, h4]
  unfold State.bodySum State.bytes
  rw [hp, show List.range' 0 (min 5 Config.CAP - 0) = [0, 1, 2, 3, 4] by decide]
  simp only [List.map, h0, h1, h2, h3, h4, checksum]
  apply BitVec.eq_of_toNat_eq
  simp
  omega

/-- The placing of a dispatch word reaches the class it asks for. -/
theorem State.selects_selectClass (s : State) (c : DispatchClass) (sum : Byte) :
    (s.selectClass c sum).selects c sum = true := by
  unfold State.selectClass
  split
  · assumption
  · cases c <;> simp only [State.selects, Bool.and_eq_true, Bool.or_eq_true, decide_eq_true_eq]
    case bodyChecksum =>
      refine ⟨State.class_checksum (by simp) (by simp [State.pos, State.len, State.byteAt]), .inr ?_⟩
      rw [State.bodySum_emptyContent (m := s.buf) (a := 0x55) (b := 0xAA) (c := sum - 0xFF) (d := 0) rfl]
      bv_omega
    case expectHeader0 => exact ⟨State.class_idx0 rfl, .inl (by simp)⟩
    case expectHeader1 => exact ⟨State.class_idx1 rfl, .inl (by simp)⟩
    case expectCommand => exact ⟨State.class_idx2 rfl, .inl (by simp)⟩
    case expectAlgo => exact ⟨State.class_idx3 rfl, .inl (by simp)⟩
    case expectLength => exact ⟨State.class_idx4 rfl, .inl (by simp)⟩
    case bodyContent =>
      exact ⟨State.class_content (by simp) (by simp [State.pos, State.len, State.byteAt]), .inl (by simp)⟩

@[simp] theorem State.selectClass_inputs (s : State) (c : DispatchClass) (sum : Byte) :
    (s.selectClass c sum).inputs = s.inputs := by
  unfold State.selectClass
  split
  · rfl
  · cases c <;> rfl

end Machine

end Sys2Proof
end

