-- ==== Sys2Proof/Laws/PerInstr.lean ====
section
/-! SUPPORT. Families of statements made instruction by instruction. -/

/-- The encoder gives every instruction as many bytes as its format has. -/
def Sys2Proof.Laws.EncodedLength.Statement (i : Sys2Proof.Instr) : Prop :=
  (Sys2Proof.encode i).2.length = (Sys2Proof.encode i).1.bytes

namespace Sys2Proof.Laws.EncodedLength

theorem reset : Statement .reset := rfl
theorem push (b : Byte) : Statement (.push b) := rfl
theorem ckClr : Statement .ckClr := rfl
theorem ckAdd (b : Byte) : Statement (.ckAdd b) := rfl
theorem h0Hit : Statement .h0Hit := rfl
theorem h0Miss (b : Byte) : Statement (.h0Miss b) := rfl
theorem h1Hit : Statement .h1Hit := rfl
theorem h1Miss (b : Byte) : Statement (.h1Miss b) := rfl
theorem cmd (b : Byte) : Statement (.cmd b) := rfl
theorem alg (b : Byte) : Statement (.alg b) := rfl
theorem lenOk (b : Byte) : Statement (.lenOk b) := rfl
theorem lenOvf (b : Byte) : Statement (.lenOvf b) := rfl
theorem body (b : Byte) : Statement (.body b) := rfl
theorem chkOk (b : Byte) : Statement (.chkOk b) := rfl
theorem chkBad (b : Byte) : Statement (.chkBad b) := rfl
theorem knock (a n : Byte) : Statement (.knock a n) := rfl
theorem getResult (a n : Byte) : Statement (.getResult a n) := rfl
theorem getAlgoParam (a n : Byte) : Statement (.getAlgoParam a n) := rfl
theorem setAlgorithm (a n : Byte) : Statement (.setAlgorithm a n) := rfl
theorem setNameById (a n : Byte) : Statement (.setNameById a n) := rfl
theorem returnArgs (a n : Byte) : Statement (.returnArgs a n) := rfl
theorem returnInfo (a n : Byte) : Statement (.returnInfo a n) := rfl
theorem returnBlock (a n : Byte) : Statement (.returnBlock a n) := rfl
theorem returnArrow (a n : Byte) : Statement (.returnArrow a n) := rfl
theorem actionTakePhoto (a n : Byte) : Statement (.actionTakePhoto a n) := rfl
theorem actionTakeScreenshot (a n : Byte) : Statement (.actionTakeScreenshot a n) := rfl
theorem actionLearn (a n : Byte) : Statement (.actionLearn a n) := rfl
theorem actionForget (a n : Byte) : Statement (.actionForget a n) := rfl
theorem actionDrawRect (a n : Byte) : Statement (.actionDrawRect a n) := rfl
theorem actionClearRect (a n : Byte) : Statement (.actionClearRect a n) := rfl
theorem actionDrawText (a n : Byte) : Statement (.actionDrawText a n) := rfl
theorem actionClearText (a n : Byte) : Statement (.actionClearText a n) := rfl
theorem actionPlayMusic (a n : Byte) : Statement (.actionPlayMusic a n) := rfl
theorem actionLearnBlock (a n : Byte) : Statement (.actionLearnBlock a n) := rfl
theorem actionDrawUniqueRect (a n : Byte) : Statement (.actionDrawUniqueRect a n) := rfl

end Sys2Proof.Laws.EncodedLength
end

