-- ==== Sys2Proof/Tests/Slice0.lean ====
section
/-! SUPPORT. The model's own tests.  Expected values are the vectors of spec/95_test_vectors.md (named by their numbers) or
words written out from the encodings of R60, R62 and R47; and, for every statement that has hypotheses, a concrete case
that meets them. -/

namespace Sys2Proof.Tests

open Sys2Proof.Machine Sys2Proof.Certificates

/-! ## Well-formedness: an ill-formed term for each check -/

theorem test_wf_refuses_h0Miss_of_header : Instr.wf (.h0Miss 0x55) = false := by decide
theorem test_wf_refuses_h1Miss_of_header : Instr.wf (.h1Miss 0xAA) = false := by decide
theorem test_wf_refuses_lenOk_above : Instr.wf (.lenOk 0x7B) = false := by decide
theorem test_wf_refuses_lenOvf_below : Instr.wf (.lenOvf 0x7A) = false := by decide

/-! ## Decoding: words written out from the encodings -/

/-- R60: `A` = `rst push ck_clr ck_add`, the operands on `din` and `ck_din`. -/
theorem test_decode_actions :
    decode .action [0b00001000, 0x00, 0x00] = .ok [.reset] ∧
    decode .action [0b00000100, 0x73, 0x00] = .ok [.push 0x73] ∧
    decode .action [0b00000010, 0x00, 0x00] = .ok [.ckClr] ∧
    decode .action [0b00000001, 0x00, 0x33] = .ok [.ckAdd 0x33] := ⟨rfl, rfl, rfl, rfl⟩

/-- R60, T2.13, T2.14, T7.4: strobes together. -/
theorem test_decode_strobes_together :
    decode .action [0b00000011, 0x00, 0x33] = .ok [.ckClr] ∧ decode .action [0b00001001, 0x00, 0x33] = .ok [.reset] ∧
    decode .action [0b00001100, 0x55, 0x00] = .ok [.reset] ∧
    decode .action [0b00000111, 0x55, 0x33] = .ok [.push 0x55, .ckClr] ∧
    decode .action [0b00000000, 0x55, 0x33] = .ok [] := ⟨rfl, rfl, rfl, rfl, rfl⟩

/-- R61, R62: `W[10:8]` is the class, `W[7:0]` the byte (the words of T4). -/
theorem test_decode_transitions :
    decodeTableWord 16 0b00001010101 = some .h0Hit ∧ decodeTableWord 16 0b00010101010 = some (.h0Miss 0xAA) ∧
    decodeTableWord 16 0b00110101010 = some .h1Hit ∧ decodeTableWord 16 0b00101010101 = some (.h1Miss 0x55) ∧
    decodeTableWord 16 0b01001010101 = some (.cmd 0x55) ∧ decodeTableWord 16 0b01110101010 = some (.alg 0xAA) ∧
    decodeTableWord 16 0b10001111010 = some (.lenOk 0x7A) ∧ decodeTableWord 16 0b10001111011 = some (.lenOvf 0x7B) ∧
    decodeTableWord 16 0b10101111001 = some (.body 0x79) := by decide

/-- R62: at the checksum position the byte above the dispatch word is the checksum the byte is compared with. -/
theorem test_decode_checksum_rows :
    decode .transition [0x53, 0b00000110, 0x53] = .ok [.chkOk 0x53] ∧
    decode .transition [0x53, 0b00000110, 0x54] = .ok [.chkBad 0x53] := ⟨rfl, rfl⟩

/-- R47, R50: `55 AA`, the command byte, then the algorithm id and the content length. -/
theorem test_decode_commands_00_to_1D :
    decode .frame [0x55, 0xAA, 0b00000000, 0x01, 0x02] = .ok [.knock 0x01 0x02] ∧
    decode .frame [0x55, 0xAA, 0b00000001, 0x01, 0x02] = .ok [.getResult 0x01 0x02] ∧
    decode .frame [0x55, 0xAA, 0b00000010, 0x01, 0x02] = .ok [.getAlgoParam 0x01 0x02] ∧
    decode .frame [0x55, 0xAA, 0b00001010, 0x01, 0x02] = .ok [.setAlgorithm 0x01 0x02] ∧
    decode .frame [0x55, 0xAA, 0b00001011, 0x01, 0x02] = .ok [.setNameById 0x01 0x02] ∧
    decode .frame [0x55, 0xAA, 0b00011010, 0x01, 0x02] = .ok [.returnArgs 0x01 0x02] ∧
    decode .frame [0x55, 0xAA, 0b00011011, 0x01, 0x02] = .ok [.returnInfo 0x01 0x02] ∧
    decode .frame [0x55, 0xAA, 0b00011100, 0x01, 0x02] = .ok [.returnBlock 0x01 0x02] ∧
    decode .frame [0x55, 0xAA, 0b00011101, 0x01, 0x02] = .ok [.returnArrow 0x01 0x02] :=
  ⟨rfl, rfl, rfl, rfl, rfl, rfl, rfl, rfl, rfl⟩

theorem test_decode_commands_20_to_2D :
    decode .frame [0x55, 0xAA, 0b00100000, 0x01, 0x02] = .ok [.actionTakePhoto 0x01 0x02] ∧
    decode .frame [0x55, 0xAA, 0b00100001, 0x01, 0x02] = .ok [.actionTakeScreenshot 0x01 0x02] ∧
    decode .frame [0x55, 0xAA, 0b00100010, 0x01, 0x02] = .ok [.actionLearn 0x01 0x02] ∧
    decode .frame [0x55, 0xAA, 0b00100011, 0x01, 0x02] = .ok [.actionForget 0x01 0x02] ∧
    decode .frame [0x55, 0xAA, 0b00100110, 0x01, 0x02] = .ok [.actionDrawRect 0x01 0x02] ∧
    decode .frame [0x55, 0xAA, 0b00100111, 0x01, 0x02] = .ok [.actionClearRect 0x01 0x02] ∧
    decode .frame [0x55, 0xAA, 0b00101000, 0x01, 0x02] = .ok [.actionDrawText 0x01 0x02] ∧
    decode .frame [0x55, 0xAA, 0b00101001, 0x01, 0x02] = .ok [.actionClearText 0x01 0x02] ∧
    decode .frame [0x55, 0xAA, 0b00101010, 0x01, 0x02] = .ok [.actionPlayMusic 0x01 0x02] ∧
    decode .frame [0x55, 0xAA, 0b00101100, 0x01, 0x02] = .ok [.actionLearnBlock 0x01 0x02] ∧
    decode .frame [0x55, 0xAA, 0b00101101, 0x01, 0x02] = .ok [.actionDrawUniqueRect 0x01 0x02] :=
  ⟨rfl, rfl, rfl, rfl, rfl, rfl, rfl, rfl, rfl, rfl, rfl⟩

/-- The 40-bit row as the table numbers it, and the same bytes as R47 numbers them. -/
theorem test_decode_command_word :
    decodeTableWord 40 0b0101010110101010000111000000000100001011 = some (.returnBlock 0x01 0x0B) ∧
    decodeTableWord 40 0x0B011CAA55 = some (.returnBlock 0x01 0x0B) := by decide

/-- What stands for no row is refused by its name (R61, R63, R47, R50). -/
theorem test_decode_refuses :
    decode .action [0b00000100, 0x73] = .error .wrongLength ∧ decode .action [0b00010100, 0x73, 0x00] = .error .wideActionWord ∧
    decode .transition [0x55, 0b00001000, 0x00] = .error .wideDispatchWord ∧
    decode .transition [0x55, 0b00000111, 0x00] = .error .unusedClass ∧
    decode .frame [0x55, 0xAB, 0x00, 0x00, 0x00] = .error .notAFramePrefix ∧
    decode .frame [0x55, 0xAA, 0x03, 0x00, 0x00] = .error .unlistedCommand := ⟨rfl, rfl, rfl, rfl, rfl, rfl⟩

/-! ## States for the tests -/

/-- A state with the given cursor, the bytes written at the indices from 0 on, and one event for each byte. -/
def receiving (idx : BitVec 7) (bytes : List Byte) : State :=
  { State.reset with
    idx := idx
    buf := (List.range bytes.length).zip bytes
    trace := (bytes.map fun b => ⟨b, .PENDING, none⟩).reverse }

/-- `F1` without its checksum (spec/95_test_vectors.md). -/
def f1Body : List Byte := [0x55, 0xAA, 0x01, 0x01, 0x00]

def frame1 : List Byte := [0x55, 0xAA, 0x01, 0x01, 0x00, 0x01]

def frame3 : List Byte := [0x55, 0xAA, 0x1B, 0x02, 0x03, 0x55, 0xAA, 0x55, 0x73]

/-- The largest frame without its checksum (T4.27). -/
def largestBody : List Byte := [0x55, 0xAA, 0x00, 0x00, 0x7A] ++ List.replicate 122 0x00

/-- `F1` has just been delivered. -/
def delivered1 : State :=
  { receiving 0 frame1 with
    fc := true, st := .FRAME
    trace := ⟨0x01, .FRAME, some frame1⟩ :: (receiving 5 f1Body).trace }

/-- The architectural fields, which a test looks at. -/
structure Seen where
  idx : Nat
  fc : Bool
  st : Status
  buf : List (Nat × Byte)
  acc : Byte
  deriving DecidableEq, Repr

/-- The architectural fields of a next state. -/
def seen : Host.Outcome State Fault Refusal → Option Seen
  | .next t => some ⟨t.idx.toNat, t.fc, t.st, t.buf, t.acc⟩
  | .fault _ => none
  | .refused _ => none

/-! ## One instruction on a small state -/

theorem test_T4_2_h0Hit : seen (exec .h0Hit delivered1) =
    some ⟨1, false, .PENDING, [(0, 0x55), (1, 0xAA), (2, 0x01), (3, 0x01), (4, 0x00), (5, 0x01)], 0⟩ := by decide
theorem test_T4_3_h0Miss : seen (exec (.h0Miss 0xAA) State.reset) = some ⟨0, false, .E_HDR0, [], 0⟩ := by decide
theorem test_T4_6_h1Hit : seen (exec .h1Hit (receiving 1 [0x55])) =
    some ⟨2, false, .PENDING, [(0, 0x55), (1, 0xAA)], 0⟩ := by decide
theorem test_T4_7_h1Miss : seen (exec (.h1Miss 0x55) (receiving 1 [0x55])) = some ⟨0, false, .E_HDR1, [(0, 0x55)], 0⟩ := by
  decide
theorem test_T4_15_cmd : seen (exec (.cmd 0x55) (receiving 2 [0x55, 0xAA])) =
    some ⟨3, false, .PENDING, [(0, 0x55), (1, 0xAA), (2, 0x55)], 0⟩ := by decide
theorem test_T4_17_alg : seen (exec (.alg 0xAA) (receiving 3 [0x55, 0xAA, 0x01])) =
    some ⟨4, false, .PENDING, [(0, 0x55), (1, 0xAA), (2, 0x01), (3, 0xAA)], 0⟩ := by decide
theorem test_T4_10_lenOk : seen (exec (.lenOk 0x7A) (receiving 4 [0x55, 0xAA, 0x01, 0x01])) =
    some ⟨5, false, .PENDING, [(0, 0x55), (1, 0xAA), (2, 0x01), (3, 0x01), (4, 0x7A)], 0⟩ := by decide
theorem test_T4_9_lenOvf : seen (exec (.lenOvf 0x7B) (receiving 4 [0x55, 0xAA, 0x01, 0x01])) =
    some ⟨0, false, .E_LEN, [(0, 0x55), (1, 0xAA), (2, 0x01), (3, 0x01)], 0⟩ := by decide
/-- T4.13: 250 + 6 = 256 does not wrap. -/
theorem test_T4_13_lenOvf : seen (exec (.lenOvf 0xFA) (receiving 4 [0x55, 0xAA, 0x01, 0x01])) =
    some ⟨0, false, .E_LEN, [(0, 0x55), (1, 0xAA), (2, 0x01), (3, 0x01)], 0⟩ := by decide
theorem test_T4_22_body : seen (exec (.body 0xAA) (receiving 6 [0x55, 0xAA, 0x01, 0x01, 0x03, 0x55])) =
    some ⟨7, false, .PENDING, [(0, 0x55), (1, 0xAA), (2, 0x01), (3, 0x01), (4, 0x03), (5, 0x55), (6, 0xAA)], 0⟩ := by
  decide
theorem test_T4_23_chkOk : seen (exec (.chkOk 0x01) (receiving 5 f1Body)) =
    some ⟨0, true, .FRAME, [(0, 0x55), (1, 0xAA), (2, 0x01), (3, 0x01), (4, 0x00), (5, 0x01)], 0⟩ := by decide
theorem test_T4_24_chkBad : seen (exec (.chkBad 0x02) (receiving 5 f1Body)) =
    some ⟨0, false, .E_CHK, [(0, 0x55), (1, 0xAA), (2, 0x01), (3, 0x01), (4, 0x00), (5, 0x02)], 0⟩ := by decide
/-- T4.23: what is delivered. -/
theorem test_T4_23_delivers : exec (.push 0x01) (receiving 5 f1Body) = .next delivered1 := rfl
/-- A row that does not fire is refused by its name, and changes nothing (R62). -/
theorem test_row_that_does_not_fire :
    exec (.chkOk 0x02) (receiving 5 f1Body) = .refused (.transitionDoesNotFire "CHK.OK") := rfl

/-- T2.4, T2.10, T7.1. -/
theorem test_T2_ck :
    exec (.ckAdd 0x01) { State.reset with acc := 0xFF } = .next { State.reset with acc := 0x00 } ∧
    exec .ckClr { State.reset with acc := 0x7F } = .next State.reset := ⟨rfl, rfl⟩
theorem test_T7_1_reset : exec .reset { receiving 9 frame3 with acc := 0x3C } = .next (receiving 0 frame3) := rfl
/-- T7.2: BUF and what was delivered stay. -/
theorem test_T7_2_reset : exec .reset { delivered1 with acc := 0x01 } =
    .next { delivered1 with fc := false, st := .PENDING } := rfl

/-- T1.8, T1.10, T1.6, T1.1 and the checks of R71 below T1. -/
theorem test_T1_checksum :
    checksum f1Body = 0x01 ∧ checksum [0x55, 0xAA, 0x1B, 0x02, 0x03, 0x55, 0xAA, 0x55] = 0x73 ∧ checksum [0xFF, 0xFF] = 0xFE ∧
    checksum [] = 0x00 ∧ verify [] 0x01 = false ∧ frameOk frame1 = true ∧ frameOk [] = false ∧
    frameOk [0x55, 0xAA, 0x01, 0x01, 0x00, 0x00] = false ∧ mkFrame 0x01 0x01 [] = frame1 ∧
    mkFrame 0x1B 0x02 [0x55, 0xAA, 0x55] = frame3 := by decide

/-- R7: a command row is one action, the PUSH of its first byte, and the four others are lined up. -/
theorem test_frame_row_is_one_action :
    exec (.getResult 0x01 0x00) State.reset = .next ((receiving 1 [0x55]).pushInput (.chunk 0xAA [0x01, 0x01, 0x00])) := rfl

/-- A frame prefix from reset, one byte a step: the first five rows of P1, and T6.7 up to its length of 123. -/
theorem test_frame_prefix :
    seen (runSteps 5 (State.reset.withFetchWord 40 0x55AA010100)) =
      some ⟨5, false, .PENDING, [(0, 0x55), (1, 0xAA), (2, 0x01), (3, 0x01), (4, 0x00)], 0⟩ ∧
    seen (runSteps 5 (State.reset.withFetchWord 40 0x55AA00007B)) =
      some ⟨0, false, .E_LEN, [(0, 0x55), (1, 0xAA), (2, 0x00), (3, 0x00)], 0⟩ := by decide

/-! ## A placed word runs as the first instruction -/

theorem test_placed_words_run :
    step (State.reset.withFetchWord 8 0x4) = exec (.push 0x00) State.reset ∧
    step (State.reset.withFetchWord 8 0x8) = exec .reset State.reset ∧
    step (State.reset.withFetchWord 16 0x055) = exec .h0Hit State.reset ∧
    step (State.reset.withFetchWord 40 0x55AA1C010B) = exec (.returnBlock 0x01 0x0B) State.reset := ⟨rfl, rfl, rfl, rfl⟩

/-- A dispatch word of a later class: the placed state is in that class, and its row runs. -/
theorem test_placed_dispatch_words :
    (seen (step (State.reset.withFetchWord 16 0x0601))).map Seen.st = some .E_CHK ∧
    (seen (step (State.reset.withFetchWord 16 0x010601))).map Seen.st = some .FRAME ∧
    (seen (step (State.reset.withFetchWord 16 0x0502))).map Seen.idx = some 6 ∧
    (seen (step (State.reset.withFetchWord 16 0x047B))).map Seen.st = some .E_LEN := by decide

/-! ## Witnesses: what meets the hypotheses of each statement that has any -/

/-- One edge lined up. -/
def withEdge (strobes : BitVec 4) : State := { State.reset with inputs := [.edge ⟨strobes, 0x55, 0x33⟩] }

theorem witness_ResetClearsAllButTheBuffer :
    (withEdge 0xF).inputs = .edge ⟨0xF, 0x55, 0x33⟩ :: [] ∧ (0xF#4).getLsbD 3 = true := by decide

theorem witness_StrobesOfOneEdge :
    (withEdge 0x7).inputs = .edge ⟨0x7, 0x55, 0x33⟩ :: [] ∧ (0x7#4).getLsbD 3 = false ∧ (0x0#4).getLsbD 3 = false := by
  decide

theorem witness_StepRunsTheDecodedInput :
    State.reset.inputs = [] ∧ (withEdge 0x5).inputs = .edge ⟨0x5, 0x55, 0x33⟩ :: [] ∧
    decodeInput (.edge ⟨0x4, 0x55, 0x33⟩) = [.push 0x55] ∧ decodeInput (.chunk 0x55 [0xAA, 0x01, 0x01, 0x00]) =
      [.getResult 0x01 0x00] ∧ decodeInput (.chunk 0x55 [0xAA]) = [.push 0x55] ∧
    decodeInput (.edge ⟨0x5, 0x55, 0x33⟩) = [.push 0x55, .ckAdd 0x33] ∧
    exec (.push 0x55) State.reset = .next (receiving 1 [0x55]) ∧
    decodeInput (.edge ⟨0x0, 0x55, 0x33⟩) = [] ∧
    decode .frame [0x55, 0xAA, 0x01, 0x01, 0x00] = .ok [.getResult 0x01 0x00] ∧
    decode .frame [0x55] = .error .wrongLength ∧
    ((State.reset.pushInput (.chunk 0x55 [0xAA])).inputs = .chunk 0x55 [0xAA] :: []) :=
  ⟨rfl, rfl, rfl, rfl, rfl, rfl, rfl, rfl, rfl, rfl, rfl⟩

theorem inv_receiving1 : (receiving 1 [0x55]).Inv where
  memory := by decide
  header0 _ := rfl
  header1 := by decide
  length := by decide
  complete := by decide
  frame := nofun
  idle _ := rfl
  written := by decide

theorem inv_receiving5 : (receiving 5 f1Body).Inv where
  memory := by decide
  header0 _ := rfl
  header1 _ := rfl
  length := by decide
  complete := by decide
  frame := nofun
  idle _ := rfl
  written := by decide

theorem good_receiving5 (is : List Input) : State.Good { receiving 5 f1Body with inputs := is } where
  inv := inv_receiving5.casesOn fun a b c d e f g h => ⟨a, b, c, d, e, f, g, h⟩
  history := ⟨⟨by decide, nofun, by decide, nofun, by decide, nofun, by decide, nofun, by decide, nofun, trivial⟩, rfl⟩
  count := (by decide : 6 * (receiving 5 f1Body).nDelivered + (receiving 5 f1Body).idx.toNat ≤ (receiving 5 f1Body).trace.length)

theorem good_delivered1 : delivered1.Good where
  inv :=
    { memory := by decide
      header0 := by decide
      header1 := by decide
      length := by decide
      complete := by decide
      frame := fun _ => ⟨rfl, rfl, rfl, by decide, by decide⟩
      idle := by decide
      written := by decide }
  history :=
    ⟨⟨by decide, fun V h => by cases h; decide, by decide, nofun, by decide, nofun, by decide, nofun, by decide, nofun,
      by decide, nofun, trivial⟩, rfl⟩
  count := by unfold State.CountInv; decide

theorem witness_EveryStepKeepsInvariants :
    State.Good { receiving 5 f1Body with inputs := [.edge ⟨0x4, 0x01, 0x00⟩] } ∧
      step { receiving 5 f1Body with inputs := [.edge ⟨0x4, 0x01, 0x00⟩] } = .next delivered1 :=
  ⟨good_receiving5 _, rfl⟩

/-- The bounds of the four conditions on an operand byte. -/
theorem witness_wellFormed :
    Instr.wf (.h0Miss 0x54) = true ∧ Instr.wf (.h0Miss 0x56) = true ∧ Instr.wf (.h1Miss 0xA9) = true ∧
    Instr.wf (.h1Miss 0xAB) = true ∧ Instr.wf (.lenOk 0x00) = true ∧ Instr.wf (.lenOk 0x7A) = true ∧
    Instr.wf (.lenOvf 0x7B) = true ∧ Instr.wf (.lenOvf 0xFF) = true ∧ Instr.wf (.chkBad 0x00) = true := by decide

/-- The bounds of each class (T3). -/
theorem witness_DispatchClassOfTheCursor :
    (receiving 0 []).idx.toNat = 0 ∧ (receiving 1 [0x55]).idx.toNat = 1 ∧ (receiving 2 [0x55, 0xAA]).idx.toNat = 2 ∧
    (receiving 3 [0x55, 0xAA, 0x01]).idx.toNat = 3 ∧ (receiving 4 [0x55, 0xAA, 0x01, 0x01]).idx.toNat = 4 ∧
    5 ≤ (receiving 5 [0x55, 0xAA, 0x01, 0x01, 0x01]).idx.toNat ∧
    (receiving 5 [0x55, 0xAA, 0x01, 0x01, 0x01]).idx.toNat <
      ((receiving 5 [0x55, 0xAA, 0x01, 0x01, 0x01]).byteAt 4).toNat + 5 ∧
    (receiving 126 largestBody).idx.toNat < ((receiving 126 largestBody).byteAt 4).toNat + 5 ∧
    5 ≤ (receiving 5 f1Body).idx.toNat ∧ ((receiving 5 f1Body).byteAt 4).toNat + 5 ≤ (receiving 5 f1Body).idx.toNat ∧
    ((receiving 127 largestBody).byteAt 4).toNat + 5 ≤ (receiving 127 largestBody).idx.toNat := by decide +kernel

theorem witness_StateNameOfTheCursor :
    5 ≤ (receiving 5 f1Body).idx.toNat ∧ 5 ≤ (receiving 127 largestBody).idx.toNat := by decide

theorem witness_PushPerformsTheSelectedTransition :
    transitionByte (.chkOk 0x01) = some 0x01 ∧ transitionByte .h0Hit = some 0x55 ∧
    Instr.chkOk 0x01 = selectTransition (receiving 5 f1Body).dispatchClass 0x01 (receiving 5 f1Body).bodySum ∧
    Instr.h0Hit ≠ selectTransition (receiving 5 f1Body).dispatchClass 0x55 (receiving 5 f1Body).bodySum := by decide

theorem witness_HeaderZero : State.reset.idx = 0 ∧ (0x54 : Byte) ≠ 0x55 ∧ (0xAA : Byte) ≠ 0x55 := by decide

theorem witness_HeaderOne : (receiving 1 [0x55]).idx = 1 ∧ (0x55 : Byte) ≠ 0xAA ∧ (0xAB : Byte) ≠ 0xAA := by decide

theorem witness_StoredVerbatim :
    (receiving 2 [0x55, 0xAA]).idx = 2 ∧ (receiving 3 [0x55, 0xAA, 0x01]).idx = 3 := by decide

theorem witness_Length :
    (receiving 4 [0x55, 0xAA, 0x01, 0x01]).idx = 4 ∧ (0x7A : Byte).toNat ≤ 122 ∧ 123 ≤ (0x7B : Byte).toNat := by decide

theorem witness_ContentByteStored :
    5 ≤ (receiving 126 largestBody).idx.toNat ∧
    (receiving 126 largestBody).idx.toNat < ((receiving 126 largestBody).byteAt 4).toNat + 5 ∧
    ((receiving 126 largestBody).byteAt 4).toNat ≤ 122 := by decide +kernel

theorem witness_Checksum :
    5 ≤ (receiving 5 f1Body).idx.toNat ∧ ((receiving 5 f1Body).byteAt 4).toNat + 5 ≤ (receiving 5 f1Body).idx.toNat ∧
    (0x01 : Byte) = checksum ((receiving 5 f1Body).bytes 0 (((receiving 5 f1Body).byteAt 4).toNat + 5)) ∧
    (0x02 : Byte) ≠ checksum ((receiving 5 f1Body).bytes 0 (((receiving 5 f1Body).byteAt 4).toNat + 5)) := by decide

/-- T4.27: the largest frame, whose checksum byte is the last of the buffer. -/
theorem witness_Checksum_largest :
    ((receiving 127 largestBody).byteAt 4).toNat + 5 ≤ (receiving 127 largestBody).idx.toNat ∧
    (0x79 : Byte) = checksum ((receiving 127 largestBody).bytes 0 (((receiving 127 largestBody).byteAt 4).toNat + 5)) :=
  ⟨by decide +kernel, by decide +kernel⟩

theorem witness_StatusOfEveryPush :
    (∃ t, exec (.push 0x54) State.reset = .next t ∧ t.st = .E_HDR0) ∧
    (∃ t, exec (.push 0x55) (receiving 1 [0x55]) = .next t ∧ t.st = .E_HDR1) ∧
    (∃ t, exec (.push 0x7B) (receiving 4 [0x55, 0xAA, 0x01, 0x01]) = .next t ∧ t.st = .E_LEN) ∧
    (∃ t, exec (.push 0x02) (receiving 5 f1Body) = .next t ∧ t.st = .E_CHK) ∧
    (∃ t, exec (.push 0x01) (receiving 5 f1Body) = .next t ∧ t.st = .FRAME) ∧
    (∃ t, exec (.push 0x55) State.reset = .next t ∧ t.st = .PENDING) :=
  ⟨⟨_, rfl, rfl⟩, ⟨_, rfl, rfl⟩, ⟨_, rfl, rfl⟩, ⟨_, rfl, rfl⟩, ⟨_, rfl, rfl⟩, ⟨_, rfl, rfl⟩⟩

theorem witness_CursorAdvancesByOneOrReturns :
    (5 ≤ (receiving 126 largestBody).idx.toNat → ((receiving 126 largestBody).byteAt 4).toNat ≤ 122) ∧
    (5 ≤ State.reset.idx.toNat → (State.reset.byteAt 4).toNat ≤ 122) := ⟨by decide +kernel, nofun⟩

theorem witness_BufferReadsWhatWasStored :
    Memory.wf (receiving 5 f1Body).buf ∧ 127 < 128 ∧ (126 : Nat) ≠ 127 := by decide

theorem witness_AccumulatorHoldsTheChecksum :
    ∀ i ∈ [Instr.ckAdd 0x55, .push 0x55, .ckAdd 0xAA], (∃ b, i = .ckAdd b) ∨ ∃ b, i = .push b := by
  simp

theorem witness_ChecksumArithmeticLaws :
    ([0x01, 0x02, 0x03, 0x04] : List Byte).Perm [0x04, 0x03, 0x02, 0x01] ∧
    (List.replicate 127 (0xFF : Byte)).length ≤ 127 := by decide +kernel

theorem witness_SingleByteChangeDetected :
    0 < f1Body.length ∧ f1Body.getD 0 0 ≠ 0xAA ∧ (0x02 : Byte) ≠ checksum f1Body ∧
    frameOk frame3 = true ∧ 8 < frame3.length ∧ frame3.getD 8 0 ≠ 0x8C := by decide

theorem witness_FrameConstructor :
    (List.replicate 122 (0x00 : Byte)).length ≤ 255 ∧ (List.replicate 255 (0x00 : Byte)).length ≤ 255 ∧
    wellFormedFrame frame3 = true := by decide +kernel

theorem witness_CommandPrefix : State.reset.idx = 0 ∧ (0x7A : Byte).toNat ≤ 122 ∧ 123 ≤ (0x7B : Byte).toNat := by decide

theorem witness_AcceptableFrameIsDelivered :
    State.reset.idx = 0 ∧ acceptableFrame frame1 = true ∧ acceptableFrame frame3 = true := by decide

theorem witness_DeliveredFrameIsSound :
    (receiving 5 f1Body).Good ∧ (∃ t, exec (.push 0x01) (receiving 5 f1Body) = .next t ∧ t.st = .FRAME) ∧
    delivered1.Good ∧ (∃ t, exec (.push 0x55) delivered1 = .next t ∧ t.st ≠ .FRAME) :=
  ⟨good_receiving5 [], ⟨_, rfl, rfl⟩, good_delivered1, ⟨_, rfl, by decide⟩⟩

theorem witness_StreamWithoutHeaderByteIsInert :
    State.reset.idx = 0 ∧ ([0x00, 0xFF, 0x13, 0xAA] : List Byte) ≠ [] ∧
    ∀ b ∈ ([0x00, 0xFF, 0x13, 0xAA] : List Byte), b ≠ 0x55 := by decide

/-- T6.3. -/
theorem witness_ResynchronisesWhenIdle :
    ∃ u, runPushes [0xAA, 0xAA, 0x55, 0x00] State.reset = .next u ∧ u.idx = 0 ∧ acceptableFrame frame1 = true :=
  ⟨_, rfl, rfl, by decide⟩

theorem witness_FalseSynchronisation : State.reset.idx = 0 ∧ delivered1.idx = 0 := by decide

theorem witness_AttemptEndsWithin128Bytes :
    (receiving 1 [0x55]).Inv ∧ (receiving 1 [0x55]).idx ≠ 0 ∧
    (List.replicate 127 (0x55 : Byte)).length = 128 - (receiving 1 [0x55]).idx.toNat :=
  ⟨inv_receiving1, by decide, by decide +kernel⟩

theorem witness_BackToBackFramesAreDelivered :
    State.reset.idx = 0 ∧ ∀ F ∈ [frame1, frame3, frame1], acceptableFrame F = true := by decide

theorem witness_RoundTripWithTheEncoder :
    State.reset.idx = 0 ∧ (List.replicate 122 (0x55 : Byte)).length ≤ 122 ∧
    123 ≤ (List.replicate 123 (0x55 : Byte)).length ∧ (List.replicate 255 (0x55 : Byte)).length ≤ 255 := by decide +kernel

/-- T5.3, T5.4, T5.6, T5.9: the command, the algorithm id, content and the checksum of `F3`. -/
theorem witness_ChangedBodyByteEndsInChecksumError :
    State.reset.idx = 0 ∧ acceptableFrame frame3 = true ∧
    ∀ pv ∈ [(2, (0xE4 : Byte)), (3, 0xFD), (5, 0xAA), (8, 0x8C)],
      pv.1 < frame3.length ∧ pv.1 ≠ 0 ∧ pv.1 ≠ 1 ∧ pv.1 ≠ 4 ∧ frame3.getD pv.1 0 ≠ pv.2 := by decide

/-- T5.1, T5.2, T5.5, T5.11. -/
theorem witness_ChangedHeaderOrLengthByte :
    State.reset.idx = 0 ∧ acceptableFrame frame1 = true ∧ (0xAA : Byte) ≠ 0x55 ∧ (0x55 : Byte) ≠ 0xAA ∧
    123 ≤ (0x7B : Byte).toNat ∧ (frame1.getD 4 0).toNat < (0x02 : Byte).toNat ∧ (0x02 : Byte).toNat ≤ 122 ∧
    (frame1.getD 4 0).toNat < (0x7A : Byte).toNat ∧ (0x7A : Byte).toNat ≤ 122 := by decide

theorem witness_StrayHeaderByteLosesTheHeader : State.reset.idx = 0 := rfl

theorem witness_DeliveredFramesStay :
    ∃ t, runInstrs [.push 0x01, .reset, .push 0x55] (receiving 5 f1Body) = .next t ∧ t.frameOutput = [frame1] :=
  ⟨_, rfl, by decide⟩

theorem witness_DeliveredFrameOutlastsTwoPushes :
    delivered1.Inv ∧ delivered1.fc = true ∧ ([0x55, 0xAA] : List Byte).length ≤ 2 := ⟨good_delivered1.inv, rfl, by decide⟩

/-- The second state has other bytes at the cursor and above it. -/
theorem witness_StaleBytesNeverMatter :
    (receiving 1 [0x55]).Inv ∧ (receiving 1 [0x55, 0x12, 0x34]).Inv ∧
    SameBelowCursor (receiving 1 [0x55]) (receiving 1 [0x55, 0x12, 0x34]) ∧
    (receiving 1 [0x55, 0x12, 0x34]).byteAt 2 = 0x34 :=
  ⟨inv_receiving1, ⟨by decide, fun _ => rfl, by decide, by decide, by decide, nofun, fun _ => rfl, by decide⟩,
    ⟨rfl, by decide⟩, rfl⟩

theorem witness_RunningSumRefinesTheAssembler :
    (receiving 5 f1Body).Inv ∧ 1 ≤ (receiving 5 f1Body).idx.toNat ∧
    (0x01 : Byte) = checksum ((receiving 5 f1Body).bytes 0 (receiving 5 f1Body).idx.toNat) :=
  ⟨inv_receiving5, by decide, by decide⟩

end Sys2Proof.Tests
end

/-! The statements of 00_scope.md: what a step runs, and a command row as the reception of its five bytes. -/

/-! ## The input of a step (R7, R60, R97) -/

namespace Sys2Proof

/-- The ports of an edge, written as an action word, decode to the actions of that edge. -/
theorem decode_action_ports (p : Ports) :
    decode .action [p.strobes.setWidth 8, p.din, p.ckDin] = .ok (decodeInput (.edge p)) := by
  have hlt : (p.strobes.setWidth 8).toNat < 16 := by
    rw [BitVec.toNat_setWidth_of_le (by decide)]
    exact p.strobes.isLt
  have hback : (p.strobes.setWidth 8).setWidth 4 = p.strobes := by
    rw [BitVec.setWidth_setWidth_of_le _ (by decide), BitVec.setWidth_eq]
  simp only [decode, decodeAction, decodeInput, if_pos hlt, hback]

theorem decodeInput_chunk_of_ok {b : Byte} {bs : List Byte} {is : List Instr}
    (h : decode .frame (b :: bs) = .ok is) : decodeInput (.chunk b bs) = is := by
  simp only [decode] at h
  simp only [decodeInput, h]

theorem decodeInput_chunk_of_error {b : Byte} {bs : List Byte} {e : DecodeError}
    (h : decode .frame (b :: bs) = .error e) : decodeInput (.chunk b bs) = [.push b] := by
  simp only [decode] at h
  simp only [decodeInput, h]

theorem remainder_chunk_of_ok {b : Byte} {bs : List Byte} {is : List Instr}
    (h : decode .frame (b :: bs) = .ok is) : Input.remainder (.chunk b bs) = [] := by
  simp only [decode] at h
  simp only [Input.remainder, h]

theorem remainder_chunk_of_error {b : Byte} {bs : List Byte} {e : DecodeError}
    (h : decode .frame (b :: bs) = .error e) : Input.remainder (.chunk b bs) = Input.ofBytes bs := by
  simp only [decode] at h
  simp only [Input.remainder, h]

end Sys2Proof

namespace Sys2Proof.Certificates

open Sys2Proof.Machine

theorem step_of_decodeInput_single {s : State} {x : Input} {rest : List Input} {i : Instr}
    (h : s.inputs = x :: rest) (hd : decodeInput x = [i]) :
    step s = exec i { s with inputs := x.remainder ++ rest } := by
  rw [step_cons h, hd, runInstrs_single]

theorem step_of_decodeInput_pair {s t : State} {x : Input} {rest : List Input} {i j : Instr}
    (h : s.inputs = x :: rest) (hd : decodeInput x = [i, j])
    (he : exec i { s with inputs := x.remainder ++ rest } = .next t) : step s = exec j t := by
  rw [step_cons h, hd, runInstrs_cons_next he, runInstrs_single]

theorem step_of_decodeInput_nil {s : State} {x : Input} {rest : List Input}
    (h : s.inputs = x :: rest) (hd : decodeInput x = []) :
    step s = .next { s with inputs := x.remainder ++ rest } := by
  rw [step_cons h, hd, runInstrs_nil]

/-- Settles O5: `step_nil`, `step_cons` and `step_chunk` are its first, second and last part; the others say what an edge
and a chunk decode to. -/
theorem stepRunsTheDecodedInput : Obligations.StepRunsTheDecodedInput := by
  refine ⟨fun _ => step_nil, fun s x rest h => ⟨step_cons h, ?_, ?_, ?_⟩, fun p => ⟨decode_action_ports p, rfl⟩,
    fun b bs => ⟨?_, ?_⟩, ?_⟩
  · exact fun i => step_of_decodeInput_single h
  · exact fun i j t => step_of_decodeInput_pair h
  · exact step_of_decodeInput_nil h
  · exact fun is hd => ⟨decodeInput_chunk_of_ok hd, remainder_chunk_of_ok hd⟩
  · exact fun e hd => ⟨decodeInput_chunk_of_error hd, remainder_chunk_of_error hd⟩
  · exact fun s b bs rest h => by rw [step_chunk h, exec_push]

/-! ## The steps over a chunk (R7, R97) -/

theorem runSteps_succ_next {k : Nat} {s t : State} (h : step s = .next t) : runSteps (k + 1) s = runSteps k t := by
  simp only [runSteps, h]

/-- As many steps as a chunk has bytes are FEED of the chunk; the inputs behind it stay lined up. -/
theorem runSteps_ofBytes (bs : List Byte) (rest : List Input) (s : State) :
    runSteps bs.length { s with inputs := Input.ofBytes bs ++ rest } =
      .next (State.feed { s with inputs := rest } bs) := by
  induction bs generalizing s with
  | nil => rfl
  | cons b bs ih =>
    have hstep : step { s with inputs := Input.ofBytes (b :: bs) ++ rest } =
        .next { s.pushByte b with inputs := Input.ofBytes bs ++ rest } := by
      rw [step_chunk (b := b) (bs := bs) (rest := rest) rfl, ← State.pushByte_setInputs]
    rw [List.length_cons, runSteps_succ_next hstep, ih, State.feed_cons,
      State.pushByte_setInputs s b rest]

theorem runPushes_eq_feed (bs : List Byte) (s : State) : runPushes bs s = .next (s.feed bs) := runInstrs_pushes bs s

/-! ## The twenty command rows (R50, R66) -/

/-- A statement holds of all twenty rows if it follows from the one fact that the command table lists the row under its
byte. -/
theorem forEveryCommandRow_of_commandInstr {P : (Byte → Byte → Instr) → Byte → Prop}
    (h : ∀ row c, (∀ a n, commandInstr c a n = some (row a n)) → P row c) : ForEveryCommandRow P := by
  refine ⟨⟨?_, ?_, ?_, ?_, ?_⟩, ⟨?_, ?_, ?_, ?_⟩, ⟨?_, ?_, ?_, ?_⟩, ⟨?_, ?_, ?_, ?_⟩, ?_, ?_, ?_⟩ <;>
    exact h _ _ fun _ _ => rfl

theorem receivePrefix_eq_pushByte (s : State) (c a n : Byte) :
    s.receivePrefix c a n = State.pushByte { s with inputs := .chunk 0xAA [c, a, n] :: s.inputs } 0x55 := by
  rw [State.pushByte_setInputs]
  simp only [State.receivePrefix, State.pushInput, State.pushByte_inputs]

/-- The four steps after a command row take the bytes it has lined up. -/
theorem runSteps_receivePrefix (s : State) (c a n : Byte) :
    runSteps 4 (s.receivePrefix c a n) = .next (s.feed [0x55, 0xAA, c, a, n]) := by
  calc runSteps 4 (s.receivePrefix c a n)
    _ = runSteps 4 { s.pushByte 0x55 with inputs := Input.ofBytes [0xAA, c, a, n] ++ s.inputs } := by
      rw [receivePrefix_eq_pushByte, State.pushByte_setInputs]
      rfl
    _ = .next (State.feed { s.pushByte 0x55 with inputs := s.inputs } [0xAA, c, a, n]) :=
      runSteps_ofBytes [0xAA, c, a, n] s.inputs (s.pushByte 0x55)
    _ = .next (s.feed [0x55, 0xAA, c, a, n]) := by rw [← State.pushByte_setInputs, State.feed_cons s]

/-- Settles O42: a row is `State.receivePrefix`, which is the first PUSH, and the four steps that follow are FEED of the
later bytes. -/
theorem commandPrefixIsFivePushes : Obligations.CommandPrefixIsFivePushes := by
  refine forEveryCommandRow_of_commandInstr fun row c hrow s a n =>
    ⟨s.receivePrefix c a n, s.feed [0x55, 0xAA, c, a, n], ?_, ?_, ?_, ?_⟩
  · exact exec_commandInstr (hrow a n) s
  · rw [exec_push, receivePrefix_eq_pushByte]
  · exact runSteps_receivePrefix s c a n
  · exact runPushes_eq_feed _ s

end Sys2Proof.Certificates

/-! The statements of 10_state.md: the start state, what the outputs and the state name show, what one PUSH does to the
state, and the invariants that every step keeps. -/

/-! ## The outcomes of a PUSH, field by field (R81, R98, R120) -/

namespace Sys2Proof.Machine

@[simp] theorem State.accepted_idx (s : State) (b : Byte) : (s.accepted b).idx = s.idx + 1 := rfl
@[simp] theorem State.accepted_buf (s : State) (b : Byte) :
    (s.accepted b).buf = Memory.write s.buf s.idx.toNat b := rfl
@[simp] theorem State.accepted_fc (s : State) (b : Byte) : (s.accepted b).fc = false := rfl
@[simp] theorem State.accepted_st (s : State) (b : Byte) : (s.accepted b).st = .PENDING := rfl
@[simp] theorem State.accepted_trace (s : State) (b : Byte) :
    (s.accepted b).trace = ⟨b, .PENDING, none⟩ :: s.trace := rfl

theorem State.Rejects.raised_trace {s : State} {b : Byte} {e : Status} (h : s.Rejects b e) :
    ((s.raiseError e).observe b).trace = ⟨b, e, none⟩ :: s.trace := by
  simp [h.ne_frame.1]

@[simp] theorem State.chkOk_idx (s : State) (b : Byte) : (s.chkOk b).idx = 0 := rfl
@[simp] theorem State.chkOk_buf (s : State) (b : Byte) : (s.chkOk b).buf = Memory.write s.buf s.idx.toNat b := rfl
@[simp] theorem State.chkOk_fc (s : State) (b : Byte) : (s.chkOk b).fc = true := rfl
@[simp] theorem State.chkOk_st (s : State) (b : Byte) : (s.chkOk b).st = .FRAME := rfl
@[simp] theorem State.chkOk_trace (s : State) (b : Byte) :
    (s.chkOk b).trace = ⟨b, .FRAME, some (s.chkOk b).frameValue⟩ :: s.trace := rfl

@[simp] theorem State.chkBad_idx (s : State) (b : Byte) : (s.chkBad b).idx = 0 := rfl
@[simp] theorem State.chkBad_buf (s : State) (b : Byte) : (s.chkBad b).buf = Memory.write s.buf s.idx.toNat b := rfl
@[simp] theorem State.chkBad_fc (s : State) (b : Byte) : (s.chkBad b).fc = false := rfl
@[simp] theorem State.chkBad_st (s : State) (b : Byte) : (s.chkBad b).st = .E_CHK := rfl
@[simp] theorem State.chkBad_trace (s : State) (b : Byte) :
    (s.chkBad b).trace = ⟨b, .E_CHK, none⟩ :: s.trace := rfl

@[simp] theorem State.byteAt_accepted_self (s : State) (b : Byte) : (s.accepted b).byteAt s.idx.toNat = b :=
  s.byteAt_store_self _ b

theorem State.byteAt_accepted_ne (s : State) (b : Byte) {i : Nat} (h : i ≠ s.idx.toNat) :
    (s.accepted b).byteAt i = s.byteAt i :=
  s.byteAt_store_ne b h

@[simp] theorem State.byteAt_chkOk_self (s : State) (b : Byte) : (s.chkOk b).byteAt s.idx.toNat = b :=
  s.byteAt_store_self _ b

theorem State.byteAt_chkOk_ne (s : State) (b : Byte) {i : Nat} (h : i ≠ s.idx.toNat) :
    (s.chkOk b).byteAt i = s.byteAt i :=
  s.byteAt_store_ne b h

@[simp] theorem State.byteAt_chkBad_self (s : State) (b : Byte) : (s.chkBad b).byteAt s.idx.toNat = b :=
  s.byteAt_store_self _ b

theorem State.len_chkOk {s : State} (b : Byte) (h : 5 ≤ s.idx.toNat) : (s.chkOk b).len = s.len :=
  s.byteAt_chkOk_ne b (by omega)

theorem State.pos_chkOk {s : State} (b : Byte) (h : 5 ≤ s.idx.toNat) : (s.chkOk b).pos = s.pos := by
  simp only [State.pos, State.len_chkOk b h]

/-- A PUSH does not look at `ACC` (R30). -/
theorem State.pushByte_setAcc (s : State) (b v : Byte) : (s.setAcc v).pushByte b = (s.pushByte b).setAcc v := by
  have hc : (s.setAcc v).dispatchClass = s.dispatchClass := rfl
  have hs : (s.setAcc v).bodySum = s.bodySum := rfl
  unfold State.pushByte
  rw [hc, hs]
  cases s.dispatchClass <;> dsimp only <;> (try split) <;> rfl

theorem State.pushByte_addAcc (s : State) (b c : Byte) : (s.addAcc c).pushByte b = (s.pushByte b).addAcc c := by
  simp only [State.addAcc, State.pushByte_setAcc, State.pushByte_acc]

/-! ## The invariants of R28 -/

theorem State.Inv.congr {s t : State} (h : s.Inv) (hidx : t.idx = s.idx) (hbuf : t.buf = s.buf) (hfc : t.fc = s.fc)
    (hst : t.st = s.st) : t.Inv := by
  cases s; cases t
  dsimp only at hidx hbuf hfc hst
  subst hidx hbuf hfc hst
  exact ⟨h.memory, h.header0, h.header1, h.length, h.complete, h.frame, h.idle, h.written⟩

/-- An idle block meets the invariants: V2 to V4, V7 and V8 speak of a cursor past 0, V6 of a frame complete. -/
theorem State.Inv.of_idle {s : State} (hbuf : Memory.wf s.buf) (hidx : s.idx = 0) (hfc : s.fc = false)
    (hst : s.st ≠ .FRAME) : s.Inv where
  memory := hbuf
  header0 := by simp [hidx]
  header1 := by simp [hidx]
  length := by simp [hidx]
  complete := by simp [hfc, hst]
  frame := by simp [hfc]
  idle := by simp [hidx]
  written := by simp [hidx]

theorem State.Inv.pos_le {s : State} (h : s.Inv) (h5 : 5 ≤ s.idx.toNat) : s.pos ≤ 127 := by
  have hlen := (h.length h5).1
  simp only [State.pos, Config.PREFIX, Config.MAXLEN] at hlen ⊢
  omega

/-- The cursor does not wrap: an accepted byte lies below the checksum position, which is at most 127. -/
theorem State.Inv.accepted_idx_toNat {s : State} {b : Byte} (h : s.Inv) (ha : s.Accepts b) :
    (s.accepted b).idx.toNat = s.idx.toNat + 1 := by
  obtain ⟨-, -, -, hbody⟩ := ha
  have hlt : s.idx.toNat < 127 := by
    by_contra hn
    have := h.pos_le (by omega)
    have := hbody (by omega)
    omega
  rw [State.accepted_idx]
  bv_omega

theorem State.Inv.wf_write {s : State} (h : s.Inv) (b : Byte) : Memory.wf (Memory.write s.buf s.idx.toNat b) :=
  Memory.wf_write b h.memory s.idx.isLt

theorem State.Inv.accepted {s : State} {b : Byte} (h : s.Inv) (ha : s.Accepts b) : (s.accepted b).Inv where
  memory := h.wf_write b
  header0 _ := by
    obtain ⟨hbyte, -⟩ := ha
    by_cases h0 : s.idx.toNat = 0
    · rw [← h0, s.byteAt_accepted_self, hbyte h0]
    · rw [s.byteAt_accepted_ne b (Ne.symm h0), h.header0 (by omega)]
  header1 h2 := by
    rw [h.accepted_idx_toNat ha] at h2
    obtain ⟨-, hbyte, -⟩ := ha
    by_cases h1 : s.idx.toNat = 1
    · rw [← h1, s.byteAt_accepted_self, hbyte h1]
    · rw [s.byteAt_accepted_ne b (Ne.symm h1), h.header1 (by omega)]
  length h5 := by
    rw [h.accepted_idx_toNat ha] at h5 ⊢
    obtain ⟨-, -, hlength, hbody⟩ := ha
    by_cases h4 : s.idx.toNat = 4
    · have hlen : (s.accepted b).len = b := by rw [State.len, ← h4, s.byteAt_accepted_self]
      rw [State.pos, hlen]
      exact ⟨hlength h4, by simp only [Config.PREFIX]; omega⟩
    · have hlen : (s.accepted b).len = s.len := s.byteAt_accepted_ne b (Ne.symm h4)
      rw [State.pos, hlen]
      exact ⟨(h.length (by omega)).1, hbody (by omega)⟩
  complete := by simp
  frame := by simp
  idle _ := rfl
  written i hi := by
    rw [h.accepted_idx_toNat ha] at hi
    rw [State.accepted_buf]
    by_cases hc : i = s.idx.toNat
    · rw [hc, Memory.lookup_write_self]; rfl
    · rw [Memory.lookup_write_ne _ _ hc]
      exact h.written i (by omega)

/-- At the checksum position the cursor is `POS` exactly. -/
theorem State.Inv.idx_eq_pos {s : State} (h : s.Inv) (h5 : 5 ≤ s.idx.toNat) (hpos : s.pos ≤ s.idx.toNat) :
    s.idx.toNat = s.pos :=
  Nat.le_antisymm (h.length h5).2 hpos

/-- V6 after a completed frame: the header and the length stand below the cursor already, and the byte stored at `POS` is
the checksum. -/
theorem State.Inv.chkOk {s : State} {b : Byte} (h : s.Inv) (h5 : 5 ≤ s.idx.toNat) (hpos : s.pos ≤ s.idx.toNat)
    (hb : b = s.bodySum) : (s.chkOk b).Inv where
  memory := h.wf_write b
  header0 := by simp
  header1 := by simp
  length := by simp
  complete := by simp
  frame _ := by
    have hidx := h.idx_eq_pos h5 hpos
    refine ⟨rfl, ?_, ?_, ?_, ?_⟩
    · rw [s.byteAt_chkOk_ne b (by omega), h.header0 (by omega)]
    · rw [s.byteAt_chkOk_ne b (by omega), h.header1 (by omega)]
    · rw [State.len_chkOk b h5]; exact (h.length h5).1
    · have hbytes : (s.chkOk b).bytes 0 s.pos = s.bytes 0 s.pos := s.bytes_store_above b hpos
      rw [State.pos_chkOk b h5, hbytes, ← hidx, s.byteAt_chkOk_self, hb, State.bodySum, hidx]
  idle := by simp
  written := by simp

theorem State.Inv.pushByte {s : State} (h : s.Inv) (b : Byte) : (s.pushByte b).Inv := by
  obtain ⟨ha, e⟩ | ⟨_, hr, e⟩ | ⟨h5, hpos, hb, e⟩ | ⟨_, _, _, e⟩ := State.pushByte_cases s b <;> rw [e]
  · exact h.accepted ha
  · exact .of_idle h.memory rfl rfl hr.ne_frame.1
  · exact h.chkOk h5 hpos hb
  · exact .of_idle (h.wf_write b) rfl rfl (by simp)

/-! ## The observation (V8, R98, R102) -/

theorem traceSound_cons_none {b : Byte} {e : Status} {tr : List Event} (he : e ≠ .FRAME) (h : traceSound tr) :
    traceSound (⟨b, e, none⟩ :: tr) :=
  ⟨by simp [he], by simp, h⟩

theorem traceSound_cons_frame {b : Byte} {V : List Byte} {tr : List Event} (hV : acceptableFrame V = true)
    (hlast : V.reverse = (b :: pushedBytes tr).take V.length) (h : traceSound tr) :
    traceSound (⟨b, .FRAME, some V⟩ :: tr) :=
  ⟨by simp, by rintro _ ⟨⟩; exact ⟨hV, hlast⟩, h⟩

/-- The bytes below the cursor, with one byte more, are the last bytes pushed once that byte is pushed. -/
theorem State.History.snoc {s : State} (h : s.History) (b : Byte) :
    s.bytes 0 s.idx.toNat ++ [b] = ((b :: pushedBytes s.trace).take (s.idx.toNat + 1)).reverse := by
  rw [h.current, List.take_succ_cons, List.reverse_cons]

theorem State.bytes_accepted (s : State) (b : Byte) :
    (s.accepted b).bytes 0 (s.idx.toNat + 1) = s.bytes 0 s.idx.toNat ++ [b] := by
  have hbelow : (s.accepted b).bytes 0 s.idx.toNat = s.bytes 0 s.idx.toNat := s.bytes_store_above b le_rfl
  rw [State.bytes_succ _ s.idx.isLt, hbelow, s.byteAt_accepted_self]

/-- What a completed frame delivers: the bytes below the cursor and the byte just pushed. -/
theorem State.Inv.frameValue_chkOk {s : State} (b : Byte) (h : s.Inv) (h5 : 5 ≤ s.idx.toNat)
    (hpos : s.pos ≤ s.idx.toNat) : (s.chkOk b).frameValue = s.bytes 0 s.idx.toNat ++ [b] := by
  rw [State.frameValue, State.pos_chkOk b h5, ← h.idx_eq_pos h5 hpos, ← s.bytes_accepted b]
  exact State.bytes_congr rfl _ _

theorem State.Inv.acceptableFrame_chkOk {s : State} {b : Byte} (h : s.Inv) (h5 : 5 ≤ s.idx.toNat)
    (hpos : s.pos ≤ s.idx.toNat) (hb : b = s.bodySum) : acceptableFrame (s.chkOk b).frameValue = true := by
  have hidx := h.idx_eq_pos h5 hpos
  have hlen := (h.length h5).1
  have hle : s.pos + 1 ≤ Config.CAP := Nat.succ_le_succ (h.pos_le h5)
  have hget : ∀ i < 5, (s.chkOk b).frameValue.getD i 0 = s.byteAt i := fun i hi => by
    rw [State.frameValue, State.pos_chkOk b h5, State.bytes_getD _ hle (by omega), s.byteAt_chkOk_ne b (by omega)]
  have hlength : (s.chkOk b).frameValue.length = s.pos + 1 := by
    rw [State.frameValue, State.pos_chkOk b h5, State.bytes_length _ _ hle]
  have hok : frameOk (s.chkOk b).frameValue = true := by
    rw [h.frameValue_chkOk b h5 hpos, frameOk_snoc, hb, State.bodySum, hidx]
  rw [acceptableFrame_iff, wellFormedFrame_iff, hget 0 (by omega), hget 1 (by omega), hget 4 (by omega), hlength]
  exact ⟨⟨by omega, h.header0 (by omega), h.header1 (by omega), rfl, hok⟩, hlen⟩

theorem State.History.congr {s t : State} (h : s.History) (hidx : t.idx = s.idx) (hbuf : t.buf = s.buf)
    (htrace : t.trace = s.trace) : t.History :=
  ⟨htrace ▸ h.sound, by rw [hidx, htrace, State.bytes_congr hbuf, h.current]⟩

theorem State.History.of_idle {s : State} (hsound : traceSound s.trace) (hidx : s.idx = 0) : s.History :=
  ⟨hsound, by simp [hidx, State.bytes_zero]⟩

theorem State.History.pushByte {s : State} (h : s.History) (hinv : s.Inv) (b : Byte) : (s.pushByte b).History := by
  obtain ⟨ha, e⟩ | ⟨_, hr, e⟩ | ⟨h5, hpos, hb, e⟩ | ⟨_, _, _, e⟩ := State.pushByte_cases s b <;> rw [e]
  · refine ⟨traceSound_cons_none (by simp) h.sound, ?_⟩
    rw [hinv.accepted_idx_toNat ha, s.bytes_accepted, h.snoc]
    rfl
  · refine .of_idle ?_ rfl
    rw [hr.raised_trace]
    exact traceSound_cons_none hr.ne_frame.1 h.sound
  · refine .of_idle ?_ rfl
    rw [State.chkOk_trace]
    refine traceSound_cons_frame (hinv.acceptableFrame_chkOk h5 hpos hb) ?_ h.sound
    rw [hinv.frameValue_chkOk b h5 hpos, List.length_append, s.bytes_length _ s.idx.isLt.le, h.snoc, List.reverse_reverse,
      List.length_singleton]
  · exact .of_idle (traceSound_cons_none (by simp) h.sound) rfl

/-! ## The count of deliveries (R111) -/

theorem State.nDelivered_cons {s t : State} {e : Event} (h : t.trace = e :: s.trace) :
    t.nDelivered = s.nDelivered + e.delivered.toList.length := by
  simp only [State.nDelivered, State.frameOutput, h, List.length_reverse, List.filterMap_cons]
  cases e.delivered <;> rfl

theorem State.CountInv.congr {s t : State} (h : s.CountInv) (hidx : t.idx = s.idx) (htrace : t.trace = s.trace) :
    t.CountInv := by
  rw [State.CountInv, State.nDelivered, State.frameOutput_congr htrace, hidx, htrace]
  exact h

/-- An event that delivers nothing keeps the count if the cursor moves by at most one. -/
theorem State.CountInv.cons_none {s t : State} {b : Byte} {e : Status} (h : s.CountInv)
    (htrace : t.trace = ⟨b, e, none⟩ :: s.trace) (hidx : t.idx.toNat ≤ s.idx.toNat + 1) : t.CountInv := by
  have hn := State.nDelivered_cons htrace
  simp only [State.CountInv, htrace, List.length_cons, Option.toList_none, List.length_nil] at h hn ⊢
  omega

theorem State.CountInv.pushByte {s : State} (h : s.CountInv) (b : Byte) : (s.pushByte b).CountInv := by
  obtain ⟨_, e⟩ | ⟨_, hr, e⟩ | ⟨h5, _, _, e⟩ | ⟨_, _, _, e⟩ := State.pushByte_cases s b <;> rw [e]
  · refine h.cons_none (s.accepted_trace b) ?_
    rw [State.accepted_idx]
    bv_omega
  · exact h.cons_none hr.raised_trace (Nat.zero_le _)
  · have hn := State.nDelivered_cons (s.chkOk_trace b)
    have hidx : (s.chkOk b).idx.toNat = 0 := rfl
    simp only [State.CountInv, State.chkOk_trace, hidx, Option.toList_some, List.length_cons, List.length_nil] at h hn ⊢
    omega
  · exact h.cons_none (s.chkBad_trace b) (Nat.zero_le _)

/-! ## The whole invariant -/

theorem State.Good.congr {s t : State} (h : s.Good) (hidx : t.idx = s.idx) (hbuf : t.buf = s.buf) (hfc : t.fc = s.fc)
    (hst : t.st = s.st) (htrace : t.trace = s.trace) : t.Good :=
  ⟨h.inv.congr hidx hbuf hfc hst, h.history.congr hidx hbuf htrace, h.count.congr hidx htrace⟩

theorem State.Good.doReset {s : State} (h : s.Good) : s.doReset.Good where
  inv := .of_idle h.inv.memory rfl rfl (by simp)
  history := .of_idle h.history.sound rfl
  count := by
    have hcount : 6 * s.nDelivered + s.idx.toNat ≤ s.trace.length := h.count
    show 6 * s.nDelivered + 0 ≤ s.trace.length
    omega

theorem State.Good.pushByte {s : State} (h : s.Good) (b : Byte) : (s.pushByte b).Good :=
  ⟨h.inv.pushByte b, h.history.pushByte h.inv b, h.count.pushByte b⟩

/-! ## What is appended to the observation -/

theorem State.statuses_append {s t : State} {es : List Event} (h : t.trace = es ++ s.trace) :
    t.statuses = s.statuses ++ (es.map Event.status).reverse := by
  simp only [State.statuses, h, List.map_append, List.reverse_append]

theorem State.frameOutput_append {s t : State} {es : List Event} (h : t.trace = es ++ s.trace) :
    t.frameOutput = s.frameOutput ++ (es.filterMap Event.delivered).reverse := by
  simp only [State.frameOutput, h, List.filterMap_append, List.reverse_append]

theorem next_of_guard {c : Prop} [Decidable c] {s t : State} {r : Refusal}
    (h : (if c then .next s else .refused r : Host.Outcome State Fault Refusal) = .next t) : c ∧ s = t := by
  split at h
  · next hc => cases h; exact ⟨hc, rfl⟩
  · cases h

/-- A transition row that runs does what the PUSH of its byte does (R62). -/
theorem exec_transitionRow {i : Instr} (hi : Instr.standsAlone i = false) {s t : State} (h : exec i s = .next t) :
    ∃ b, t = s.pushByte b := by
  cases i with
  | h0Hit =>
    obtain ⟨hc, rfl⟩ := next_of_guard h
    exact ⟨Config.HDR0, by simp [State.pushByte, hc]⟩
  | h0Miss b =>
    obtain ⟨⟨hc, hb⟩, rfl⟩ := next_of_guard h
    exact ⟨b, by simp only [State.pushByte, hc, if_neg hb]⟩
  | h1Hit =>
    obtain ⟨hc, rfl⟩ := next_of_guard h
    exact ⟨Config.HDR1, by simp [State.pushByte, hc]⟩
  | h1Miss b =>
    obtain ⟨⟨hc, hb⟩, rfl⟩ := next_of_guard h
    exact ⟨b, by simp only [State.pushByte, hc, if_neg hb]⟩
  | cmd b =>
    obtain ⟨hc, rfl⟩ := next_of_guard h
    exact ⟨b, by simp only [State.pushByte, hc]⟩
  | alg b =>
    obtain ⟨hc, rfl⟩ := next_of_guard h
    exact ⟨b, by simp only [State.pushByte, hc]⟩
  | lenOk b =>
    obtain ⟨⟨hc, hb⟩, rfl⟩ := next_of_guard h
    exact ⟨b, by simp only [State.pushByte, hc, if_pos hb]⟩
  | lenOvf b =>
    obtain ⟨⟨hc, hb⟩, rfl⟩ := next_of_guard h
    exact ⟨b, by simp only [State.pushByte, hc, if_neg (Nat.not_le.2 hb)]⟩
  | body b =>
    obtain ⟨hc, rfl⟩ := next_of_guard h
    exact ⟨b, by simp only [State.pushByte, hc]⟩
  | chkOk b =>
    obtain ⟨⟨hc, hb⟩, rfl⟩ := next_of_guard h
    exact ⟨b, by simp only [State.pushByte, hc, if_pos hb]⟩
  | chkBad b =>
    obtain ⟨⟨hc, hb⟩, rfl⟩ := next_of_guard h
    exact ⟨b, by simp only [State.pushByte, hc, if_neg hb]⟩
  | _ => cases hi

/-- No instruction takes an event back (R31, R135). -/
theorem exec_trace {i : Instr} {s t : State} (h : exec i s = .next t) : ∃ es, t.trace = es ++ s.trace := by
  have hpush : ∀ b, ∃ es, (s.pushByte b).trace = es ++ s.trace := fun b =>
    let ⟨_, hd⟩ := s.pushByte_trace b
    ⟨[_], hd⟩
  cases hi : Instr.standsAlone i with
  | false =>
    obtain ⟨b, rfl⟩ := exec_transitionRow hi h
    exact hpush b
  | true =>
    obtain e | ⟨_, e⟩ | ⟨b, _, e⟩ := exec_standsAlone hi s <;> (rw [e] at h; cases h)
    · exact ⟨[], rfl⟩
    · exact ⟨[], rfl⟩
    · exact hpush b

theorem runInstrs_trace {is : List Instr} {s t : State} (h : runInstrs is s = .next t) :
    ∃ es, t.trace = es ++ s.trace := by
  induction is generalizing s with
  | nil => cases h; exact ⟨[], rfl⟩
  | cons i is ih =>
    simp only [runInstrs] at h
    split at h
    · next u hu =>
      obtain ⟨es, hes⟩ := exec_trace hu
      obtain ⟨fs, hfs⟩ := ih h
      exact ⟨fs ++ es, by rw [hfs, hes, List.append_assoc]⟩
    · cases h
    · cases h

end Sys2Proof.Machine

namespace Sys2Proof.Certificates

open Sys2Proof.Machine

/-! ## The start state and what it shows -/

/-- Settles O2, field by field. -/
theorem startStateHasResetValues : Obligations.StartStateHasResetValues :=
  ⟨rfl, rfl, rfl, rfl, rfl, fun _ => rfl, rfl, rfl⟩

/-- Settles O3: the start state is idle and has observed nothing. -/
theorem startStateMeetsInvariants : Obligations.StartStateMeetsInvariants where
  inv := .of_idle Memory.wf_nil rfl rfl (by decide)
  history := .of_idle trivial rfl
  count := Nat.le_refl 0

/-- Settles O12, cursor by cursor. -/
theorem stateNameOfTheCursor : Obligations.StateNameOfTheCursor := by
  refine fun s => ⟨fun h => ?_, fun h => ?_, fun h => ?_, fun h => ?_, fun h => ?_, fun h => ?_⟩
  case refine_6 =>
    obtain ⟨k, hk⟩ := Nat.exists_eq_add_of_le' h
    simp only [State.stateName, hk]
  all_goals simp only [State.stateName, h]

/-- Settles O31: the ports are the fields. -/
theorem outputPortsShowTheState : Obligations.OutputPortsShowTheState :=
  fun _ _ => ⟨rfl, rfl, rfl, rfl, rfl⟩

/-! ## One PUSH -/

/-- Settles O35: a PUSH neither reads nor writes `ACC`. -/
theorem pushAndCkCommute : Obligations.PushAndCkCommute := by
  refine fun s b c => ⟨(s.pushByte b).setAcc 0, (s.pushByte b).addAcc c, rfl, ?_, rfl, ?_⟩
  · rw [← State.pushByte_setAcc]; rfl
  · rw [← State.pushByte_addAcc]; rfl

/-- Settles O28: of the four outcomes of a PUSH three store the byte, and the fourth is a framing error. -/
theorem pushWritesOneByteAtTheCursor : Obligations.PushWritesOneByteAtTheCursor := by
  refine fun s b => ⟨s.pushByte b, rfl, s.pushByte_acc b, s.pushByte_inputs b, ?_,
    fun a => s.pushByte_byteAt_ne b, ?_⟩
  · obtain ⟨_, hd⟩ := s.pushByte_trace b
    rw [hd, List.tail_cons]
  · obtain ⟨_, e⟩ | ⟨_, hr, e⟩ | ⟨_, _, _, e⟩ | ⟨_, _, _, e⟩ := State.pushByte_cases s b <;> rw [e]
    · exact ⟨by simp, fun _ => s.byteAt_accepted_self b⟩
    · refine ⟨fun _ => rfl, fun hn => absurd ?_ hn⟩
      obtain ⟨rfl, _⟩ | ⟨rfl, _⟩ | ⟨rfl, _⟩ := hr <;> simp
    · exact ⟨by simp, fun _ => s.byteAt_chkOk_self b⟩
    · exact ⟨by simp, fun _ => s.byteAt_chkBad_self b⟩

/-! ## Every step and every run -/

/-- Settles O4: RESET, a write of `ACC` and every PUSH keep the invariant, and a step does nothing else. -/
theorem everyStepKeepsInvariants : Obligations.EveryStepKeepsInvariants := by
  intro s t hs ht
  obtain ⟨u, hu, hgood⟩ := step_keeps (P := State.Good) (fun _ _ h => h.congr rfl rfl rfl rfl rfl)
    (fun _ h => h.doReset) (fun _ _ h => h.congr rfl rfl rfl rfl rfl) (fun _ b h => h.pushByte b) s hs
  rw [hu] at ht
  cases ht
  exact hgood

/-- Settles O57: a run only adds events to the observation. -/
theorem deliveredFramesStay : Obligations.DeliveredFramesStay := fun _ _ _ h =>
  let ⟨_, hes⟩ := runInstrs_trace h
  ⟨_, State.frameOutput_append hes⟩

/-! ## Bytes at or above the cursor (R27, U5) -/

section SameBelow

variable {s u : State} (h : SameBelowCursor s u)

include h

theorem SameBelowCursor.idx_eq : u.idx.toNat = s.idx.toNat := by rw [h.1]

theorem SameBelowCursor.pos_eq (h5 : 5 ≤ s.idx.toNat) : u.pos = s.pos := by
  simp only [State.pos, State.len, h.2 4 (by omega)]

theorem SameBelowCursor.bodySum_eq (h5 : 5 ≤ s.idx.toNat) (hpos : s.pos ≤ s.idx.toNat) : u.bodySum = s.bodySum := by
  rw [State.bodySum, State.bodySum, h.pos_eq h5, State.bytes_ext fun i hi => h.2 i (by omega)]

theorem SameBelowCursor.accepts {b : Byte} (ha : s.Accepts b) : u.Accepts b := by
  obtain ⟨h0, h1, h4, h5⟩ := ha
  rw [State.Accepts, h.idx_eq]
  exact ⟨h0, h1, h4, fun hb => h.pos_eq hb ▸ h5 hb⟩

theorem SameBelowCursor.rejects {b : Byte} {e : Status} (hr : s.Rejects b e) : u.Rejects b e := by
  rw [State.Rejects, h.idx_eq]
  exact hr

/-- Once both have stored the same byte at the cursor, they agree there too. -/
theorem SameBelowCursor.byteAt_store {b : Byte} {i : Nat} (hi : i ≤ s.idx.toNat) :
    (s.store s.idx.toNat b).byteAt i = (u.store u.idx.toNat b).byteAt i := by
  rw [h.idx_eq]
  by_cases hc : i = s.idx.toNat
  · rw [hc, State.byteAt_store_self, State.byteAt_store_self]
  · rw [State.byteAt_store_ne _ _ hc, State.byteAt_store_ne _ _ hc, h.2 i (by omega)]

theorem SameBelowCursor.accepted (b : Byte) : SameBelowCursor (s.accepted b) (u.accepted b) := by
  refine ⟨by rw [State.accepted_idx, State.accepted_idx, h.1], fun i hi => h.byteAt_store (b := b) ?_⟩
  rw [State.accepted_idx] at hi
  bv_omega

theorem SameBelowCursor.frameValue_chkOk (b : Byte) (h5 : 5 ≤ s.idx.toNat) (hpos : s.pos ≤ s.idx.toNat) :
    (u.chkOk b).frameValue = (s.chkOk b).frameValue := by
  rw [State.frameValue, State.frameValue, State.pos_chkOk b h5, State.pos_chkOk b (h.idx_eq ▸ h5), h.pos_eq h5]
  exact (State.bytes_ext fun i hi => h.byteAt_store (b := b) (by omega)).symm

omit h in
theorem sameBelowCursor_of_idle (hs : s.idx = 0) (hu : u.idx = 0) : SameBelowCursor s u :=
  ⟨hs.trans hu.symm, by simp [hs]⟩

/-- One PUSH: both states make the same event of it. -/
theorem SameBelowCursor.pushByte (b : Byte) : ∃ e, (s.pushByte b).trace = e :: s.trace ∧
    (u.pushByte b).trace = e :: u.trace ∧ SameBelowCursor (s.pushByte b) (u.pushByte b) := by
  obtain ⟨ha, e⟩ | ⟨_, hr, e⟩ | ⟨h5, hpos, hb, e⟩ | ⟨h5, hpos, hb, e⟩ := State.pushByte_cases s b <;> rw [e]
  · rw [State.pushByte_accepts (h.accepts ha)]
    exact ⟨_, s.accepted_trace b, u.accepted_trace b, h.accepted b⟩
  · rw [State.pushByte_rejects (h.rejects hr)]
    exact ⟨_, hr.raised_trace, (h.rejects hr).raised_trace, sameBelowCursor_of_idle rfl rfl⟩
  · rw [State.pushByte_chkOk (h.idx_eq ▸ h5) (by rwa [h.pos_eq h5, h.idx_eq]) (h.bodySum_eq h5 hpos ▸ hb)]
    refine ⟨_, s.chkOk_trace b, ?_, sameBelowCursor_of_idle rfl rfl⟩
    rw [u.chkOk_trace, h.frameValue_chkOk b h5 hpos]
  · rw [State.pushByte_chkBad (h.idx_eq ▸ h5) (by rwa [h.pos_eq h5, h.idx_eq]) (h.bodySum_eq h5 hpos ▸ hb)]
    exact ⟨_, s.chkBad_trace b, u.chkBad_trace b, sameBelowCursor_of_idle rfl rfl⟩

theorem SameBelowCursor.feed (bs : List Byte) : ∃ es, (s.feed bs).trace = es ++ s.trace ∧
    (u.feed bs).trace = es ++ u.trace ∧ SameBelowCursor (s.feed bs) (u.feed bs) := by
  induction bs generalizing s u with
  | nil => exact ⟨[], rfl, rfl, h⟩
  | cons b bs ih =>
    obtain ⟨e, hs, hu, hsame⟩ := h.pushByte b
    obtain ⟨es, hs', hu', hsame'⟩ := ih hsame
    refine ⟨es ++ [e], ?_, ?_, hsame'⟩
    · rw [State.feed_cons, hs', hs, List.append_assoc, List.singleton_append]
    · rw [State.feed_cons, hu', hu, List.append_assoc, List.singleton_append]

end SameBelow

/-- Settles O59: on every stream the two states make the same events.  Nothing of `State.Inv` is needed for it. -/
theorem staleBytesNeverMatter : Obligations.StaleBytesNeverMatter := by
  intro s u bs _ _ h
  obtain ⟨es, hs, hu, hsame⟩ := h.feed bs
  exact ⟨s.feed bs, u.feed bs, _, _, runPushes_eq_feed bs s, runPushes_eq_feed bs u, hsame,
    State.statuses_append hs, State.statuses_append hu, State.frameOutput_append hs, State.frameOutput_append hu⟩

end Sys2Proof.Certificates

namespace Sys2Proof.Certificates

open Sys2Proof.Machine

/-! ## Family 20: the buffer as a memory -/

/-- Settles O30: reading back, the frame of a write and the canonical form are each a law of the buffer, with `CAP` = 128
in the last. -/
theorem bufferReadsWhatWasStored : Obligations.BufferReadsWhatWasStored :=
  fun m a _ v => ⟨m.read_write_self a v, m.read_write_ne v, m.wf_write v⟩

end Sys2Proof.Certificates

/-! The statements of 30_encoding.md: the encodings and the table's words, the dispatch of PUSH, frames and the twenty
command rows. -/

namespace Sys2Proof

open Sys2Proof.Certificates

/-! ## The encoder's words, format by format -/

theorem classOfCode_code (c : DispatchClass) : classOfCode (c.code.setWidth 8).toNat = some c := by cases c <;> rfl

theorem actionsOf_push (b : Byte) : actionsOf ⟨0x4#4, b, 0⟩ = [.push b] := by simp [actionsOf]

theorem actionsOf_ckAdd (b : Byte) : actionsOf ⟨0x1#4, 0, b⟩ = [.ckAdd b] := by simp [actionsOf]

/-- The encoder by format: an action is the word of ports at which it alone happens (R60), a transition the word of a class
and a byte that select it (R62), a command row a frame prefix with its command byte (R50). -/
theorem encode_cases {i : Instr} (h : i.wf = true) :
    (∃ p : Ports, encode i = (.action, [p.strobes.setWidth 8, p.din, p.ckDin]) ∧ actionsOf p = [i]) ∨
    (∃ c b sum, encode i = (.transition, [b, c.code.setWidth 8, sum]) ∧ selectTransition c b sum = i) ∨
    ∃ c a n, encode i = (.frame, prefixBytes c a n) ∧ commandInstr c a n = some i := by
  cases i with
  | reset => exact .inl ⟨⟨0x8, 0, 0⟩, rfl, rfl⟩
  | push b => exact .inl ⟨⟨0x4, b, 0⟩, rfl, actionsOf_push b⟩
  | ckClr => exact .inl ⟨⟨0x2, 0, 0⟩, rfl, rfl⟩
  | ckAdd b => exact .inl ⟨⟨0x1, 0, b⟩, rfl, actionsOf_ckAdd b⟩
  | h0Hit => exact .inr (.inl ⟨.expectHeader0, Config.HDR0, 0, rfl, rfl⟩)
  | h0Miss b => exact .inr (.inl ⟨.expectHeader0, b, 0, rfl, if_neg (of_decide_eq_true h)⟩)
  | h1Hit => exact .inr (.inl ⟨.expectHeader1, Config.HDR1, 0, rfl, rfl⟩)
  | h1Miss b => exact .inr (.inl ⟨.expectHeader1, b, 0, rfl, if_neg (of_decide_eq_true h)⟩)
  | cmd b => exact .inr (.inl ⟨.expectCommand, b, 0, rfl, rfl⟩)
  | alg b => exact .inr (.inl ⟨.expectAlgo, b, 0, rfl, rfl⟩)
  | lenOk b => exact .inr (.inl ⟨.expectLength, b, 0, rfl, if_pos (of_decide_eq_true h)⟩)
  | lenOvf b => exact .inr (.inl ⟨.expectLength, b, 0, rfl, if_neg (Nat.not_le.2 (of_decide_eq_true h))⟩)
  | body b => exact .inr (.inl ⟨.bodyContent, b, 0, rfl, rfl⟩)
  | chkOk b => exact .inr (.inl ⟨.bodyChecksum, b, b, rfl, if_pos rfl⟩)
  | chkBad b => exact .inr (.inl ⟨.bodyChecksum, b, ~~~b, rfl, if_neg (BitVec.ne_not_self (by decide))⟩)
  | _ => exact .inr (.inr ⟨_, _, _, rfl, rfl⟩)

theorem decode_transition (c : DispatchClass) (b sum : Byte) :
    decode .transition [b, c.code.setWidth 8, sum] = .ok [selectTransition c b sum] := by
  have hlt : (c.code.setWidth 8).toNat < 8 := by cases c <;> decide
  simp only [decode, decodeTransition, if_pos hlt, classOfCode_code]

theorem decode_frame_of_commandInstr {c a n : Byte} {i : Instr} (h : commandInstr c a n = some i) :
    decode .frame (prefixBytes c a n) = .ok [i] := by
  simp only [decode, decodeFrame_prefixBytes, h]

theorem decode_encode {i : Instr} (h : i.wf = true) : decode (encode i).1 (encode i).2 = .ok [i] := by
  obtain ⟨p, he, hi⟩ | ⟨c, b, sum, he, hi⟩ | ⟨c, a, n, he, hi⟩ := encode_cases h <;> rw [he]
  · rw [decode_action_ports, decodeInput, hi]
  · rw [decode_transition, hi]
  · exact decode_frame_of_commandInstr hi

/-! ## Numbers as bytes -/

theorem littleEndian_and_cons (b m : Byte) (w v : Nat) :
    (b.toNat + 256 * w) &&& (m.toNat + 256 * v) = (b &&& m).toNat + 256 * (w &&& v) := by
  have hb := b.isLt
  have hm := m.isLt
  have hbm := (b &&& m).isLt
  have hlow := Nat.and_mod_two_pow (a := b.toNat + 256 * w) (b := m.toNat + 256 * v) (n := 8)
  have hhigh := Nat.and_div_two_pow (a := b.toNat + 256 * w) (b := m.toNat + 256 * v) (n := 8)
  rw [show (b.toNat + 256 * w) % 2 ^ 8 = b.toNat by omega, show (m.toNat + 256 * v) % 2 ^ 8 = m.toNat by omega,
    ← BitVec.toNat_and] at hlow
  rw [show (b.toNat + 256 * w) / 2 ^ 8 = w by omega, show (m.toNat + 256 * v) / 2 ^ 8 = v by omega] at hhigh
  omega

/-- Masking a number masks its bytes. -/
theorem littleEndian_and (bs ms : List Byte) :
    littleEndian bs &&& littleEndian ms = littleEndian (List.zipWith (· &&& ·) bs ms) := by
  induction bs generalizing ms with
  | nil => simp [littleEndian]
  | cons b bs ih =>
    cases ms with
    | nil => simp [littleEndian]
    | cons m ms => rw [littleEndian, littleEndian, littleEndian_and_cons, ih, List.zipWith_cons_cons, littleEndian]

theorem byteOf_littleEndian (bs : List Byte) (k : Nat) : byteOf (littleEndian bs) k = bs.getD k 0 := by
  induction bs generalizing k with
  | nil => simp [littleEndian, byteOf]
  | cons b bs ih =>
    cases k with
    | zero => rw [littleEndian, byteOf_first, List.getD_cons_zero]
    | succ k => rw [littleEndian, byteOf_rest, ih, List.getD_cons_succ]

/-- A frame prefix in the numbering of the table, its first byte most significant, is read back. -/
theorem frameBytesOf_littleEndian_reverse (c a n : Byte) :
    frameBytesOf (littleEndian (prefixBytes c a n).reverse) = prefixBytes c a n := by
  refine frameBytesOf_table ?_
  simp [prefixBytes, frameBytesTable, byteOf_littleEndian]

theorem wordBytes_tableWord {i : Instr} (h : i.wf = true) : wordBytes (encode i).1 (tableWord i) = (encode i).2 := by
  unfold tableWord
  obtain ⟨p, he, _⟩ | ⟨c, b, sum, he, _⟩ | ⟨c, a, n, he, _⟩ := encode_cases h <;> rw [he]
  · simp [wordBytes, byteOf_littleEndian]
  · simp [wordBytes, byteOf_littleEndian]
  · exact frameBytesOf_littleEndian_reverse c a n

/-! ## The rows of opcode_table.json -/

theorem formatOfWidth_tableRow (i : Instr) : formatOfWidth (tableRow i).nbits = some (encode i).1 := by cases i <;> rfl

theorem dispatchWord_and_classMask (b k sum : Byte) :
    littleEndian [b, k, sum] &&& 0x700 = 256 * (k &&& 7).toNat := by
  rw [show 0x700 = littleEndian [0, 7] by rfl, littleEndian_and]
  simp [littleEndian]

theorem actionWord_and_mask (A din ckDin m : Byte) :
    littleEndian [A, din, ckDin] &&& m.toNat = (A &&& m).toNat := by
  rw [show m.toNat = littleEndian [m] by rfl, littleEndian_and]
  simp [littleEndian]

theorem prefixWord_and_mask (c a n : Byte) :
    littleEndian (prefixBytes c a n).reverse &&& 0xFFFFFF0000 = 0x55AA000000 + c.toNat * 0x10000 := by
  have hmasked : List.zipWith (· &&& ·) (prefixBytes c a n).reverse [0, 0, .allOnes 8, .allOnes 8, .allOnes 8] =
      [0, 0, c, Config.HDR1, Config.HDR0] := by simp [prefixBytes, -BitVec.reduceAllOnes]
  rw [show 0xFFFFFF0000 = littleEndian [0, 0, .allOnes 8, .allOnes 8, .allOnes 8] by rfl, littleEndian_and, hmasked]
  change 0 + 256 * (0 + 256 * (c.toNat + 256 * (0xAA + 256 * (0x55 + 256 * 0)))) = 0x55AA000000 + c.toNat * 0x10000
  omega

theorem tableWord_and_mask (i : Instr) : tableWord i &&& (tableRow i).mask = (tableRow i).matched := by
  cases i with
  | reset | ckClr | h0Hit | h1Hit => rfl
  | push b => exact actionWord_and_mask 0x4 b 0 0xC
  | ckAdd b => exact actionWord_and_mask 0x1 0 b 0xB
  | h0Miss b | h1Miss b | cmd b | alg b | lenOk b | lenOvf b | body b | chkOk b | chkBad b =>
    exact dispatchWord_and_classMask b _ _
  | _ => exact prefixWord_and_mask _ _ _

theorem decodeTableWord_tableWord {i : Instr} (h : i.wf = true) :
    decodeTableWord (tableRow i).nbits (tableWord i) = some i :=
  decodeTableWord_of (formatOfWidth_tableRow i) (wordBytes_tableWord h) (decode_encode h)

end Sys2Proof

namespace Sys2Proof.Machine

open Sys2Proof.Certificates

/-! ## The transition a state selects for a byte (R62) -/

theorem transitionByte_selectTransition (c : DispatchClass) (b sum : Byte) :
    transitionByte (selectTransition c b sum) = some b := by
  cases c <;> simp only [selectTransition]
  case expectHeader0 => split <;> simp [transitionByte, *]
  case expectHeader1 => split <;> simp [transitionByte, *]
  case expectLength => split <;> rfl
  case bodyChecksum => split <;> rfl
  all_goals rfl

/-- The selected row fires, and does what the PUSH of its byte does. -/
theorem exec_selectTransition (s : State) (b : Byte) :
    exec (selectTransition s.dispatchClass b s.bodySum) s = exec (.push b) s := by
  rw [exec_push, State.pushByte]
  cases hc : s.dispatchClass <;> simp only [selectTransition]
  case expectCommand | expectAlgo | bodyContent => exact if_pos hc
  case expectHeader0 | expectHeader1 =>
    split
    · exact if_pos hc
    · exact if_pos ⟨hc, ‹_›⟩
  case expectLength =>
    split
    · exact if_pos ⟨hc, ‹_›⟩
    · exact if_pos ⟨hc, Nat.not_le.1 ‹_›⟩
  case bodyChecksum => split <;> exact if_pos ⟨hc, ‹_›⟩

/-- A transition row that is not the selected one for its byte does not fire: its condition would select it. -/
theorem exec_of_ne_selectTransition {s : State} {b : Byte} {i : Instr} (hb : transitionByte i = some b)
    (hne : i ≠ selectTransition s.dispatchClass b s.bodySum) :
    exec i s = .refused (.transitionDoesNotFire (transitionName i)) := by
  cases i <;> cases hb <;> refine if_neg fun hc => hne ?_
  case h0Hit | h1Hit => simp [hc, selectTransition]
  case cmd | alg | body => simp only [hc, selectTransition]
  case h0Miss | h1Miss | chkBad => simp only [hc.1, selectTransition, if_neg hc.2]
  case lenOk | chkOk => simp only [hc.1, selectTransition, if_pos hc.2]
  case lenOvf => simp only [hc.1, selectTransition, if_neg (Nat.not_le.2 hc.2)]

/-! ## Placed words -/

section PlacedWord

variable (s : State) {i : Instr}

theorem State.withFetchWord_action {p : Ports}
    (he : encode i = (.action, [p.strobes.setWidth 8, p.din, p.ckDin])) :
    s.withFetchWord (tableRow i).nbits (tableWord i) = s.pushInput (.edge p) := by
  have hA : BitVec.ofNat 4 (littleEndian [p.strobes.setWidth 8, p.din, p.ckDin]) = p.strobes := by
    apply BitVec.eq_of_toNat_eq
    have := p.strobes.isLt
    rw [BitVec.toNat_ofNat, littleEndian, BitVec.toNat_setWidth]
    omega
  simp only [State.withFetchWord, State.placeWord, formatOfWidth_tableRow, tableWord, he, byteOf_littleEndian, hA,
    List.getD_cons_zero, List.getD_cons_succ]

theorem State.withFetchWord_transition {c : DispatchClass} {b sum : Byte}
    (he : encode i = (.transition, [b, c.code.setWidth 8, sum])) :
    s.withFetchWord (tableRow i).nbits (tableWord i) = (s.selectClass c sum).pushInput (.edge ⟨0x4#4, b, 0⟩) := by
  simp only [State.withFetchWord, State.placeWord, formatOfWidth_tableRow, tableWord, he, byteOf_littleEndian,
    List.getD_cons_zero, List.getD_cons_succ, classOfCode_code]

theorem State.withFetchWord_frame {c a n : Byte} (he : encode i = (.frame, prefixBytes c a n)) :
    s.withFetchWord (tableRow i).nbits (tableWord i) = s.pushInput (.chunk Config.HDR0 [Config.HDR1, c, a, n]) := by
  simp only [State.withFetchWord, State.placeWord, formatOfWidth_tableRow, tableWord, he,
    frameBytesOf_littleEndian_reverse]
  rfl

theorem selectTransition_congr_sum {c : DispatchClass} (hc : c ≠ .bodyChecksum) (b sum sum' : Byte) :
    selectTransition c b sum = selectTransition c b sum' := by
  cases c
  case bodyChecksum => exact absurd rfl hc
  all_goals rfl

/-- A state in the class `c`, with the checksum `sum` where it matters, selects the row of `c`, `b` and `sum`. -/
theorem selectTransition_of_selects {u : State} {c : DispatchClass} {sum : Byte} (h : u.selects c sum = true) (b : Byte) :
    selectTransition u.dispatchClass b u.bodySum = selectTransition c b sum := by
  simp only [State.selects, Bool.and_eq_true, Bool.or_eq_true, decide_eq_true_eq] at h
  obtain ⟨rfl, hne | rfl⟩ := h
  · exact selectTransition_congr_sum hne b _ _
  · rfl

theorem exec_completes_of_standsAlone (h : Instr.standsAlone i = true) : ∃ t, exec i s = .next t := by
  obtain e | ⟨_, e⟩ | ⟨_, _, e⟩ := exec_standsAlone h s <;> exact ⟨_, e⟩

end PlacedWord

/-! ## The frame constructor (R58, R59, R99) -/

theorem length_mkFrame (c a : Byte) (s : List Byte) : (mkFrame c a s).length = s.length + 6 := by
  simp [mkFrame, appendChecksum, prefixBytes]

theorem lengthByte_mkFrame (c a : Byte) {s : List Byte} (h : s.length ≤ 255) :
    ((mkFrame c a s).getD 4 0).toNat = s.length :=
  Nat.mod_eq_of_lt (by omega)

theorem dropLast_mkFrame (c a : Byte) (s : List Byte) :
    (mkFrame c a s).dropLast = prefixBytes c a (BitVec.ofNat 8 s.length) ++ s :=
  List.dropLast_concat

theorem frameContent_mkFrame (c a : Byte) (s : List Byte) : frameContent (mkFrame c a s) = s :=
  List.dropLast_concat

theorem frameChecksum_mkFrame (c a : Byte) (s : List Byte) :
    frameChecksum (mkFrame c a s) = some (checksum (mkFrame c a s).dropLast) := by
  rw [dropLast_mkFrame]
  exact List.getLast?_concat

theorem wellFormedFrame_mkFrame (c a : Byte) {s : List Byte} (h : s.length ≤ 255) :
    wellFormedFrame (mkFrame c a s) = true := by
  refine (wellFormedFrame_iff _).2 ⟨?_, rfl, rfl, ?_, (frameOk_snoc _ _).2 rfl⟩
  · rw [length_mkFrame]; omega
  · rw [length_mkFrame, lengthByte_mkFrame c a h]

theorem acceptableFrame_mkFrame (c a : Byte) {s : List Byte} (h : s.length ≤ 255) :
    acceptableFrame (mkFrame c a s) = true ↔ s.length ≤ 122 := by
  rw [acceptableFrame_iff, lengthByte_mkFrame c a h]
  exact and_iff_right (wellFormedFrame_mkFrame c a h)

theorem eq_mkFrame_of_wellFormedFrame {F : List Byte} (h : wellFormedFrame F = true) :
    F = mkFrame (F.getD 2 0) (F.getD 3 0) (frameContent F) := by
  obtain ⟨c, a, n, content, rfl, hlen⟩ := wellFormedFrame_split h
  have hn : BitVec.ofNat 8 content.length = n := by rw [hlen, BitVec.ofNat_toNat, BitVec.setWidth_eq]
  have hF : [Config.HDR0, Config.HDR1, c, a, n] ++ content ++
      [checksum ([Config.HDR0, Config.HDR1, c, a, n] ++ content)] = mkFrame c a content := by
    rw [mkFrame, hn]; rfl
  rw [hF, frameContent_mkFrame]
  rfl

/-! ## The header and the prefix of a frame, byte by byte (R82 to R89) -/

theorem State.Accepts.pushByte_eq {s : State} {b : Byte} (h : s.Accepts b) : s.pushByte b =
    { s with
      idx := s.idx + 1, buf := Memory.write s.buf s.idx.toNat b, fc := false, st := .PENDING
      trace := ⟨b, .PENDING, none⟩ :: s.trace } :=
  State.pushByte_accepts h

theorem State.Rejects.pushByte_eq {s : State} {b : Byte} {e : Status} (h : s.Rejects b e) : s.pushByte b =
    { s with idx := 0, fc := false, st := e, trace := ⟨b, e, none⟩ :: s.trace } := by
  rw [State.pushByte_rejects h, ← h.raised_trace]
  rfl

theorem State.pushByte_header0 {s : State} (h : s.idx = 0) : s.pushByte 0x55 =
    { s with
      idx := 1, buf := Memory.write s.buf 0 0x55, fc := false, st := .PENDING
      trace := ⟨0x55, .PENDING, none⟩ :: s.trace } := by
  have ha : s.Accepts 0x55 := by simp [State.Accepts, h]
  rw [ha.pushByte_eq, h]
  rfl

/-- The state once the first four bytes of a frame are received from idle. -/
def State.awaitingLength (s : State) (c a : Byte) : State :=
  { s with
    idx := 4
    buf := Memory.write (Memory.write (Memory.write (Memory.write s.buf 0 0x55) 1 0xAA) 2 c) 3 a
    fc := false, st := .PENDING
    trace := [⟨a, .PENDING, none⟩, ⟨c, .PENDING, none⟩, ⟨0xAA, .PENDING, none⟩, ⟨0x55, .PENDING, none⟩] ++ s.trace }

theorem State.feed_header {s : State} (h : s.idx = 0) (c a : Byte) :
    s.feed [0x55, 0xAA, c, a] = s.awaitingLength c a := by
  rw [State.feed_cons, State.pushByte_header0 h]
  iterate 3 rw [State.feed_cons, State.Accepts.pushByte_eq (by simp [State.Accepts])]
  rfl

theorem State.feed_prefix {s : State} (h : s.idx = 0) (c a n : Byte) :
    s.feed [0x55, 0xAA, c, a, n] = (s.awaitingLength c a).pushByte n := by
  rw [← State.feed_header h, ← State.feed_snoc]
  rfl

theorem State.receivePrefix_of_idle {s : State} (h : s.idx = 0) (c a n : Byte) : s.receivePrefix c a n =
    { s with
      idx := 1, buf := Memory.write s.buf 0 0x55, fc := false, st := .PENDING
      inputs := .chunk 0xAA [c, a, n] :: s.inputs, trace := ⟨0x55, .PENDING, none⟩ :: s.trace } := by
  rw [State.receivePrefix, State.pushByte_header0 h]
  rfl

end Sys2Proof.Machine

namespace Sys2Proof.Certificates

open Sys2Proof.Machine

/-! ## Family 30: the encodings -/

/-- Settles O8, format by format (`decode_encode`). -/
theorem decodeInvertsEncode : Obligations.DecodeInvertsEncode := fun _ => decode_encode

/-- Settles O9: masking a word masks its bytes, and the bytes of the word are the encoded ones, which the decoder reads
back. -/
theorem encodedWordsMatchTheTable : Obligations.EncodedWordsMatchTheTable :=
  fun i h => ⟨tableWord_and_mask i, decodeTableWord_tableWord h⟩

theorem step_pushInput {s : State} {x : Input} {i : Instr} (hd : decodeInput x = [i]) (hr : x.remainder = []) :
    step (s.pushInput x) = exec i s := by
  rw [step_of_decodeInput_single rfl hd, hr]
  rfl

/-- A placed word runs next as `i` if the input it places runs as an instruction that does what `i` does. -/
theorem placed_runs_next {s u t : State} {nbits w : Nat} {x : Input} {i j : Instr}
    (hw : s.withFetchWord nbits w = u.pushInput x) (hu : u.inputs = s.inputs) (hd : decodeInput x = [j])
    (hr : x.remainder = []) (hj : exec j u = .next t) (hi : exec i u = .next t) :
    ∃ t, step (s.withFetchWord nbits w) = .next t ∧
      exec i { s.withFetchWord nbits w with inputs := s.inputs } = .next t := by
  rw [hw, ← hu]
  exact ⟨t, (step_pushInput hd hr).trans hj, hi⟩

/-- Settles O10: an action and a frame prefix are placed as an input that decodes to them; a dispatch word is placed as the
PUSH of its byte in a state that selects its row. -/
theorem placedWordRunsNext : Obligations.PlacedWordRunsNext := by
  intro s i hwf
  obtain ⟨p, he, hi⟩ | ⟨c, b, sum, he, hi⟩ | ⟨c, a, n, he, hi⟩ := encode_cases hwf
  · obtain ⟨t, ht⟩ := exec_completes_of_standsAlone s (actionsOf_standsAlone p i (by simp [hi]))
    exact placed_runs_next (s.withFetchWord_action he) rfl hi rfl ht ht
  · have hsel := exec_selectTransition (s.selectClass c sum) b
    rw [selectTransition_of_selects (s.selects_selectClass c sum), hi] at hsel
    exact placed_runs_next (s.withFetchWord_transition he) (s.selectClass_inputs c sum) (actionsOf_push b) rfl
      (exec_push b _) hsel
  · have hd := decode_frame_of_commandInstr hi
    have ht := exec_commandInstr hi s
    exact placed_runs_next (s.withFetchWord_frame he) rfl (decodeInput_chunk_of_ok hd) (remainder_chunk_of_ok hd) ht ht

/-! ## Family 30: the dispatch of PUSH -/

/-- Settles O13: the selected row is the PUSH, and the condition of any other row fails. -/
theorem pushPerformsTheSelectedTransition : Obligations.PushPerformsTheSelectedTransition := by
  refine fun s b i hb => ⟨?_, exec_of_ne_selectTransition hb⟩
  rintro rfl
  exact ⟨exec_selectTransition s b, _, exec_selectTransition s b⟩

/-- Settles O14: the selected row fires, and any other row for the byte is refused. -/
theorem exactlyOneTransitionFires : Obligations.ExactlyOneTransitionFires := by
  refine fun s b => ⟨selectTransition s.dispatchClass b s.bodySum,
    ⟨transitionByte_selectTransition _ b _, _, exec_selectTransition s b⟩, ?_⟩
  rintro i ⟨hb, t, ht⟩
  by_contra hne
  rw [exec_of_ne_selectTransition hb hne] at ht
  cases ht

/-! ## Family 30: frames and their prefixes -/

/-- Settles O39, field by field; the converse splits a well-formed frame into its parts. -/
theorem frameConstructor : Obligations.FrameConstructor :=
  ⟨fun c a s h => ⟨wellFormedFrame_mkFrame c a h, acceptableFrame_mkFrame c a h, rfl, rfl, rfl,
    frameContent_mkFrame c a s, frameChecksum_mkFrame c a s⟩, fun _ => eq_mkFrame_of_wellFormedFrame⟩

/-- Settles O40: the row and three steps more receive the header from idle, and the last step accepts the length. -/
theorem commandPrefixAccepted : Obligations.CommandPrefixAccepted := by
  refine forEveryCommandRow_of_commandInstr fun row c hrow s a n hidx hn =>
    ⟨s.receivePrefix c a n, exec_commandInstr (hrow a n) s, State.receivePrefix_of_idle hidx c a n, ?_⟩
  have ha : (s.awaitingLength c a).Accepts n := by simpa [State.Accepts, State.awaitingLength] using hn
  rw [runSteps_receivePrefix, State.feed_prefix hidx, ha.pushByte_eq]
  rfl

/-- Settles O41: as for O40, but the last step rejects the length. -/
theorem commandPrefixRejected : Obligations.CommandPrefixRejected := by
  refine forEveryCommandRow_of_commandInstr fun row c hrow s a n hidx hn =>
    ⟨s.receivePrefix c a n, exec_commandInstr (hrow a n) s, State.receivePrefix_of_idle hidx c a n, ?_⟩
  have hr : (s.awaitingLength c a).Rejects n .E_LEN := .inr (.inr ⟨rfl, rfl, hn⟩)
  rw [runSteps_receivePrefix, State.feed_prefix hidx, hr.pushByte_eq]
  rfl

/-! ## Family 30: one edge, ten words and the classes -/

theorem exists_next_of_pushStrobe (s : State) (p : Ports) : ∃ u,
    (if p.strobes.getLsbD 2 then exec (.push p.din) s = .next u else u = s) ∧
      runInstrs (if p.strobes.getLsbD 2 = true then [.push p.din] else []) s = .next u := by
  split
  · exact ⟨s.pushByte p.din, rfl, rfl⟩
  · exact ⟨s, rfl, rfl⟩

theorem exists_next_of_ckStrobes (s : State) (p : Ports) : ∃ u,
    (if p.strobes.getLsbD 1 then exec .ckClr s = .next u
      else if p.strobes.getLsbD 0 then exec (.ckAdd p.ckDin) s = .next u
      else u = s) ∧
      runInstrs (if p.strobes.getLsbD 1 = true then [.ckClr]
        else if p.strobes.getLsbD 0 = true then [.ckAdd p.ckDin] else []) s = .next u := by
  split
  · exact ⟨s.setAcc 0, rfl, rfl⟩
  · split
    · exact ⟨s.addAcc p.ckDin, rfl, rfl⟩
    · exact ⟨s, rfl, rfl⟩

/-- Settles O6: without `rst` the edge runs its PUSH, if any, and then its CK action, if any. -/
theorem strobesOfOneEdge : Obligations.StrobesOfOneEdge := by
  intro s p rest h hrst
  obtain ⟨u, hpush, hu⟩ := exists_next_of_pushStrobe { s with inputs := rest } p
  obtain ⟨v, hck, hv⟩ := exists_next_of_ckStrobes u p
  refine ⟨u, v, hpush, hck, ?_⟩
  rw [step_edge h, actionsOf_bits, hrst, if_neg Bool.false_ne_true, runInstrs_append_next hu, hv]

/-- Settles O7, by running the decoder on the ten words. -/
theorem tableWordsDecode : Obligations.TableWordsDecode := by
  unfold Obligations.TableWordsDecode
  decide

/-- Settles O11, cursor by cursor; `POS` is `BUF[4] + 5`. -/
theorem dispatchClassOfTheCursor : Obligations.DispatchClassOfTheCursor := by
  intro s
  refine ⟨fun h => ?_, fun h => ?_, fun h => ?_, fun h => ?_, fun h => ?_, fun h hlt => ?_, fun h hle => ?_⟩
  · rw [State.class_idx0 h]; exact ⟨rfl, rfl⟩
  · rw [State.class_idx1 h]; exact ⟨rfl, rfl⟩
  · rw [State.class_idx2 h]; exact ⟨rfl, rfl⟩
  · rw [State.class_idx3 h]; exact ⟨rfl, rfl⟩
  · rw [State.class_idx4 h]; exact ⟨rfl, rfl⟩
  · rw [State.class_content h hlt]; exact ⟨rfl, rfl⟩
  · rw [State.class_checksum h hle]; exact ⟨rfl, rfl⟩

end Sys2Proof.Certificates

/-! The statements of 40_checksum_codec.md: the laws of the checksum, the frames it verifies, and the accumulator. -/

namespace Sys2Proof.Machine

/-! ## The checksum (R70, R77) -/

theorem checksum_perm {s t : List Byte} (h : s.Perm t) : checksum s = checksum t :=
  congrArg (BitVec.ofNat 8) (h.map BitVec.toNat).sum_eq

theorem checksum_zero_cons (s : List Byte) : checksum (0 :: s) = checksum s := by
  simp [checksum_cons]

theorem checksum_add_cons (a b : Byte) (s : List Byte) : checksum ((a + b) :: s) = checksum (a :: b :: s) := by
  simp only [checksum_cons, BitVec.add_assoc]

/-- A change of one byte moves the checksum by the difference of the two values. -/
theorem checksum_set {s : List Byte} {k : Nat} (h : k < s.length) (v : Byte) :
    checksum (s.set k v) + s.getD k 0 = checksum s + v := by
  induction s generalizing k with
  | nil => exact absurd h (Nat.not_lt_zero k)
  | cons b s ih =>
    cases k with
    | zero =>
      rw [List.set_cons_zero, List.getD_cons_zero, checksum_cons, checksum_cons]
      ac_rfl
    | succ k =>
      rw [List.set_cons_succ, List.getD_cons_succ, checksum_cons, checksum_cons, BitVec.add_assoc,
        ih (Nat.lt_of_succ_lt_succ h), BitVec.add_assoc]

theorem checksum_set_ne {s : List Byte} {k : Nat} {v : Byte} (h : k < s.length) (hv : s.getD k 0 ≠ v) :
    checksum (s.set k v) ≠ checksum s := by
  intro he
  have hmove := checksum_set h v
  rw [he] at hmove
  exact hv ((BitVec.add_right_inj _).1 hmove)

theorem sum_toNat_le (s : List Byte) : (s.map BitVec.toNat).sum ≤ s.length * 255 := by
  have hbyte : ∀ x ∈ s.map BitVec.toNat, x ≤ 255 := List.forall_mem_map.2 fun b _ => Nat.le_of_lt_succ b.isLt
  simpa using List.sum_le_card_nsmul _ 255 hbyte

/-! ## Frames and their checksum (R71, R77) -/

theorem verify_eq_false_iff (s : List Byte) (c : Byte) : verify s c = false ↔ checksum s ≠ c := by simp [verify]

theorem frameOk_snoc_eq_false_iff (s : List Byte) (b : Byte) : frameOk (s ++ [b]) = false ↔ b ≠ checksum s := by
  rw [← Bool.not_eq_true, frameOk_snoc]

/-- A frame that is right at its checksum is not empty, so it is a byte sequence with its checksum appended. -/
theorem exists_appendChecksum_of_frameOk {F : List Byte} (h : frameOk F = true) : ∃ s, F = appendChecksum s := by
  obtain rfl | ⟨s, b, rfl⟩ := F.eq_nil_or_concat
  · cases h
  · rw [List.concat_eq_append, frameOk_snoc] at h
    exact ⟨s, by rw [List.concat_eq_append, h, appendChecksum]⟩

/-- A changed byte is one before the checksum, which moves the sum, or the checksum itself. -/
theorem frameOk_set_appendChecksum (s : List Byte) {k : Nat} {v : Byte} (hk : k < (appendChecksum s).length)
    (hv : (appendChecksum s).getD k 0 ≠ v) : frameOk ((appendChecksum s).set k v) = false := by
  rw [appendChecksum, List.length_append, List.length_singleton] at hk
  rw [appendChecksum] at hv ⊢
  obtain hlt | rfl := Nat.lt_succ_iff_lt_or_eq.1 hk
  · rw [List.getD_append _ _ _ _ hlt] at hv
    rw [List.set_append_left _ _ hlt, frameOk_snoc_eq_false_iff]
    exact (checksum_set_ne hlt hv).symm
  · rw [List.getD_append_right _ _ _ _ le_rfl, Nat.sub_self, List.getD_cons_zero] at hv
    rw [List.set_append_right _ _ le_rfl, Nat.sub_self, List.set_cons_zero, frameOk_snoc_eq_false_iff]
    exact hv.symm

/-! ## The accumulator (R75, R76, R147) -/

theorem add_eq_ofNat_mod (a b : Byte) : a + b = BitVec.ofNat 8 ((a.toNat + b.toNat) % 256) :=
  BitVec.eq_of_toNat_eq (by simp)

theorem setAcc_checksum_addAcc (s : State) (b : Byte) (bs : List Byte) :
    (s.addAcc b).setAcc (checksum ((s.addAcc b).acc :: bs)) = s.setAcc (checksum (s.acc :: b :: bs)) := by
  rw [State.addAcc_acc, checksum_add_cons]
  rfl

/-- A run of CK.ADD, one for each byte, adds the bytes to the accumulator and does nothing else. -/
theorem runInstrs_ckAdds (bs : List Byte) (s : State) :
    runInstrs (bs.map .ckAdd) s = .next (s.setAcc (checksum (s.acc :: bs))) := by
  induction bs generalizing s with
  | nil => simp [checksum_cons, State.setAcc]
  | cons b bs ih => rw [List.map_cons, runInstrs_cons_next (exec_ckAdd b s), ih, setAcc_checksum_addAcc]

end Sys2Proof.Machine

namespace Sys2Proof.Certificates

open Sys2Proof.Machine

/-! ## Family 40: the checksum unit -/

/-- A CK.ADD moves its byte into the accumulator, and a PUSH leaves the accumulator alone. -/
theorem runInstrs_ckAdd_push_acc {is : List Instr} (h : ∀ i ∈ is, (∃ b, i = .ckAdd b) ∨ ∃ b, i = .push b) (s : State) :
    ∃ t, runInstrs is s = .next t ∧ t.acc = checksum (s.acc :: ckAddBytes is) := by
  induction is generalizing s with
  | nil => exact ⟨s, rfl, by simp [ckAddBytes, checksum_cons]⟩
  | cons i is ih =>
    obtain ⟨hi, his⟩ := List.forall_mem_cons.1 h
    obtain ⟨b, rfl⟩ | ⟨b, rfl⟩ := hi
    · obtain ⟨t, hrun, hacc⟩ := ih his (s.addAcc b)
      refine ⟨t, (runInstrs_cons_next (exec_ckAdd b s)).trans hrun, ?_⟩
      rw [hacc, State.addAcc_acc, checksum_add_cons, ckAddBytes]
    · obtain ⟨t, hrun, hacc⟩ := ih his (s.pushByte b)
      refine ⟨t, (runInstrs_cons_next (exec_push b s)).trans hrun, ?_⟩
      rw [hacc, State.pushByte_acc]
      rfl

/-- Settles O34: a mix of CK.ADD and PUSH by induction on it; CK.SUM adds its bytes to an accumulator of 0. -/
theorem accumulatorHoldsTheChecksum : Obligations.AccumulatorHoldsTheChecksum := by
  refine ⟨fun is s h => runInstrs_ckAdd_push_acc h s, fun bs s => ?_⟩
  rw [runInstrs_cons_next (exec_ckClr s), runInstrs_ckAdds, State.setAcc_acc, checksum_zero_cons]
  rfl

/-- Settles O36: (a) to (e) from the checksum as a running sum, (f) because a byte is at most 255. -/
theorem checksumArithmeticLaws : Obligations.ChecksumArithmeticLaws := by
  refine ⟨checksum_toNat, fun s b => ?_, fun s t => ?_, fun _ _ => checksum_perm, fun s t => ?_, fun s h => ?_⟩
  · rw [checksum_snoc, BitVec.toNat_add]
  · rw [checksum_append, BitVec.toNat_add]
  · rw [checksum_append, checksum_zero_cons, checksum_append]
  · exact (sum_toNat_le s).trans (Nat.mul_le_mul_right 255 h)

/-- Settles O38: one changed byte moves the checksum, and a frame holds the checksum of the bytes before it. -/
theorem singleByteChangeDetected : Obligations.SingleByteChangeDetected := by
  refine ⟨fun s k v hk hv => ?_, fun s c hc => ?_, fun F k v hF hk hv => ?_⟩
  · exact (verify_eq_false_iff _ _).2 (checksum_set_ne hk hv)
  · exact (verify_eq_false_iff _ _).2 hc.symm
  · obtain ⟨s, rfl⟩ := exists_appendChecksum_of_frameOk hF
    exact frameOk_set_appendChecksum s hk hv

/-- Settles O32: CK.CLR is a write of `ACC`. -/
theorem ckClrClearsTheAccumulator : Obligations.CkClrClearsTheAccumulator := exec_ckClr

/-- Settles O33: CK.ADD is a write of `ACC`, and eight bits add modulo 256. -/
theorem ckAddAddsModulo256 : Obligations.CkAddAddsModulo256 := by
  intro s b
  rw [exec_ckAdd, State.addAcc, add_eq_ofNat_mod]
  rfl

/-- Settles O37: `verify` compares with the checksum, and so does `frame_ok` with the last byte. -/
theorem codecRoundTrip : Obligations.CodecRoundTrip := by
  intro s
  refine ⟨(frameOk_snoc s _).2 rfl, ⟨checksum s, (verify_iff s _).2 rfl, fun c hc => ?_⟩, (verify_iff s _).2 rfl⟩
  exact ((verify_iff s c).1 hc).symm

end Sys2Proof.Certificates

/-! The statements of 41_frame_assembler.md: the eleven transitions, the moves of the cursor, and the realisation with a
running sum. -/

namespace Sys2Proof.Machine

open Sys2Proof.Certificates

/-- A transition row that runs is the selected one, so the PUSH of its byte gives the same next state (R62, R81). -/
theorem exec_and_push_of_transitionRow {s t : State} {b : Byte} {i : Instr} (hb : transitionByte i = some b)
    (h : exec i s = .next t) : exec i s = .next t ∧ exec (.push b) s = .next t := by
  by_cases hi : i = selectTransition s.dispatchClass b s.bodySum
  · exact ⟨h, by rw [← exec_selectTransition, ← hi, h]⟩
  · rw [exec_of_ne_selectTransition hb hi] at h
    cases h

/-- With an accepted length the cursor does not wrap at an accepted byte (R90, R93). -/
theorem State.Accepts.idx_add_one_toNat {s : State} {b : Byte} (ha : s.Accepts b)
    (hlen : 5 ≤ s.idx.toNat → s.len.toNat ≤ 122) : (s.idx + 1).toNat = s.idx.toNat + 1 := by
  obtain ⟨-, -, -, hbody⟩ := ha
  have hlt : s.idx.toNat < 127 := by
    by_contra hn
    have hpos : s.pos = s.len.toNat + 5 := rfl
    have := hlen (by omega)
    have := hbody (by omega)
    omega
  bv_omega

/-! ## The running sum (R96) -/

/-- `rs` is the checksum of the bytes below the cursor, once there are any. -/
def State.SummedBy (s : State) (rs : Byte) : Prop :=
  1 ≤ s.idx.toNat → rs = checksum (s.bytes 0 s.idx.toNat)

theorem State.SummedBy.of_idle {s : State} (h : s.idx = 0) (rs : Byte) : s.SummedBy rs := fun h1 => by
  simp [h] at h1

/-- An accepted byte is added to the sum; the first byte of a frame starts it, whatever `rs` was. -/
theorem State.SummedBy.nextSum_accepts {s : State} {rs b : Byte} (h : s.SummedBy rs) (ha : s.Accepts b) :
    nextSum s rs b = checksum (s.bytes 0 s.idx.toNat) + b := by
  obtain ⟨h0, h1, h4, h5⟩ := ha
  have hm := s.class_means
  unfold nextSum
  cases hc : s.dispatchClass <;> rw [hc] at hm <;> simp only [DispatchClassMeans] at hm
  case expectHeader0 => rw [if_pos (h0 hm), hm, State.bytes_zero, checksum_nil]
  case expectHeader1 => rw [if_pos (h1 hm), h (by omega)]
  case expectCommand | expectAlgo | bodyContent => rw [h (by omega)]
  case expectLength => rw [if_pos (Nat.add_le_add_right (h4 hm) 6), h (by omega)]
  case bodyChecksum => exact absurd (h5 hm.1) (Nat.not_lt.2 hm.2)

/-- At the checksum position the bytes below the cursor are `BUF[0..POS)`, so `rs` is the checksum compared with. -/
theorem State.SummedBy.eq_bodySum {s : State} {rs : Byte} (h : s.SummedBy rs) (hinv : s.Inv) (h5 : 5 ≤ s.idx.toNat)
    (hpos : s.pos ≤ s.idx.toNat) : rs = s.bodySum := by
  rw [h (by omega), hinv.idx_eq_pos h5 hpos, State.bodySum]

theorem State.SummedBy.pushByteRS_eq {s : State} {rs : Byte} (h : s.SummedBy rs) (hinv : s.Inv) (b : Byte) :
    s.pushByteRS rs b = s.pushByte b := by
  unfold State.pushByteRS State.pushByte
  cases hc : s.dispatchClass
  case bodyChecksum =>
    have hm : DispatchClassMeans s .bodyChecksum := hc ▸ s.class_means
    simp only [h.eq_bodySum hinv hm.1 hm.2]
  all_goals rfl

theorem State.SummedBy.pushByte {s : State} {rs : Byte} (h : s.SummedBy rs) (hinv : s.Inv) (b : Byte) :
    (s.pushByte b).SummedBy (nextSum s rs b) := by
  obtain ⟨ha, e⟩ | ⟨_, _, e⟩ | ⟨_, _, _, e⟩ | ⟨_, _, _, e⟩ := State.pushByte_cases s b <;> rw [e]
  · intro _
    rw [h.nextSum_accepts ha, hinv.accepted_idx_toNat ha, s.bytes_accepted, checksum_snoc]
  all_goals exact .of_idle rfl _

/-- On every stream the realisation ends in the state of FA, and its running sum is right again. -/
theorem State.SummedBy.feed {s : State} {rs : Byte} (h : s.SummedBy rs) (hinv : s.Inv) (bs : List Byte) :
    (feedRS (s, rs) bs).1 = s.feed bs ∧ (s.feed bs).SummedBy (feedRS (s, rs) bs).2 := by
  induction bs generalizing s rs with
  | nil => exact ⟨rfl, h⟩
  | cons b bs ih =>
    rw [feedRS, h.pushByteRS_eq hinv, State.feed_cons]
    exact ih (h.pushByte hinv b) (hinv.pushByte b)

end Sys2Proof.Machine

namespace Sys2Proof.Certificates

open Sys2Proof.Machine

/-! ## Family 41: the realisation with a running sum, and the cursor -/

/-- Settles O60: before every byte the running sum is the checksum of the bytes below the cursor. -/
theorem runningSumRefinesTheAssembler : Obligations.RunningSumRefinesTheAssembler := by
  intro s rs bs hinv hsum
  obtain ⟨hstate, hnext⟩ := State.SummedBy.feed hsum hinv bs
  rw [hstate]
  exact ⟨runPushes_eq_feed bs s, hnext⟩

/-- Settles O29: of the four outcomes of a PUSH the accepting one alone has status PENDING, and the others return the
cursor to 0. -/
theorem cursorAdvancesByOneOrReturns : Obligations.CursorAdvancesByOneOrReturns := by
  refine fun s b hlen => ⟨s.pushByte b, rfl, ?_⟩
  obtain ⟨ha, e⟩ | ⟨_, hr, e⟩ | ⟨_, _, _, e⟩ | ⟨_, _, _, e⟩ := State.pushByte_cases s b <;> rw [e]
  · exact ⟨fun _ => ha.idx_add_one_toNat hlen, fun hn => absurd rfl hn⟩
  · exact ⟨fun hp => absurd hp hr.ne_frame.2, fun _ => rfl⟩
  · exact ⟨by simp, fun _ => rfl⟩
  · exact ⟨by simp, fun _ => rfl⟩

/-! ## Family 41: the eleven transitions

In each proof the cursor and the byte meet the condition under which the row fires; the next state is what the model's
own function for the row says. -/

/-- Settles O15: H0.HIT fires at cursor 0. -/
theorem headerZeroHit : Obligations.HeaderZeroHit := fun s h =>
  ⟨s.h0Hit, rfl, exec_and_push_of_transitionRow rfl (if_pos (State.class_idx0 (congrArg BitVec.toNat h)))⟩

/-- Settles O16: H0.MISS fires at cursor 0 for any byte but `0x55`. -/
theorem headerZeroMiss : Obligations.HeaderZeroMiss := fun s b h hb =>
  ⟨s.h0Miss b, rfl, exec_and_push_of_transitionRow rfl (if_pos ⟨State.class_idx0 (congrArg BitVec.toNat h), hb⟩)⟩

/-- Settles O17: H1.HIT fires at cursor 1. -/
theorem headerOneHit : Obligations.HeaderOneHit := fun s h =>
  ⟨s.h1Hit, rfl, exec_and_push_of_transitionRow rfl (if_pos (State.class_idx1 (congrArg BitVec.toNat h)))⟩

/-- Settles O18: the condition of the row does not look at whether `b` is `0x55`. -/
theorem headerOneMiss : Obligations.HeaderOneMiss := fun s b h hb =>
  ⟨s.h1Miss b, rfl, exec_and_push_of_transitionRow rfl (if_pos ⟨State.class_idx1 (congrArg BitVec.toNat h), hb⟩)⟩

/-- Settles O19: CMD fires at cursor 2 for every byte. -/
theorem commandStoredVerbatim : Obligations.CommandStoredVerbatim := fun s b h =>
  ⟨s.cmd b, rfl, exec_and_push_of_transitionRow rfl (if_pos (State.class_idx2 (congrArg BitVec.toNat h)))⟩

/-- Settles O20: ALG fires at cursor 3 for every byte. -/
theorem algorithmStoredVerbatim : Obligations.AlgorithmStoredVerbatim := fun s b h =>
  ⟨s.alg b, rfl, exec_and_push_of_transitionRow rfl (if_pos (State.class_idx3 (congrArg BitVec.toNat h)))⟩

/-- Settles O21: `b <= 122` is `b + 6 <= CAP`. -/
theorem lengthAccepted : Obligations.LengthAccepted := fun s b h hb =>
  ⟨s.lenOk b, rfl, exec_and_push_of_transitionRow rfl
    (if_pos ⟨State.class_idx4 (congrArg BitVec.toNat h), Nat.add_le_add_right hb 6⟩)⟩

/-- Settles O22: `b >= 123` is `b + 6 > CAP`. -/
theorem lengthRejected : Obligations.LengthRejected := fun s b h hb =>
  ⟨s.lenOvf b, rfl, exec_and_push_of_transitionRow rfl
    (if_pos ⟨State.class_idx4 (congrArg BitVec.toNat h), Nat.add_le_add_right hb 6⟩)⟩

/-- Settles O23: below `POS` the row BODY fires; with an accepted length `POS` is at most 127, so the cursor does not
wrap. -/
theorem contentByteStored : Obligations.ContentByteStored := by
  intro s b h5 hpos
  have ha : s.Accepts b := ⟨by omega, by omega, by omega, fun _ => hpos⟩
  exact ⟨s.body b, rfl, fun hlen => ha.idx_add_one_toNat fun _ => hlen,
    exec_and_push_of_transitionRow rfl (if_pos (State.class_content h5 hpos))⟩

/-- Settles O24: CHK.OK fires at or past `POS`, and its checksum is `State.bodySum`. -/
theorem checksumMatchCompletes : Obligations.ChecksumMatchCompletes := fun s b h5 hpos hb =>
  ⟨s.chkOk b, rfl, exec_and_push_of_transitionRow rfl (if_pos ⟨State.class_checksum h5 hpos, hb⟩)⟩

/-- Settles O25: CHK.BAD fires where CHK.OK does not for the byte. -/
theorem checksumMismatchDrops : Obligations.ChecksumMismatchDrops := fun s b h5 hpos hb =>
  ⟨s.chkBad b, rfl, exec_and_push_of_transitionRow rfl (if_pos ⟨State.class_checksum h5 hpos, hb⟩)⟩

end Sys2Proof.Certificates

/-! The statements of 42_stream_and_properties.md: runs that never stop, streams however they are cut, frames received from
idle, and what a changed or misplaced byte leads to. -/

namespace Sys2Proof.Machine

/-! ## What a stream leaves in the observation (R97, R98) -/

/-- The events of pushing `bs`, newest first, where every `PUSH` has the status `e` and delivers nothing. -/
def undelivered (e : Status) (bs : List Byte) : List Event := (bs.map fun b => ⟨b, e, none⟩).reverse

theorem undelivered_cons (e : Status) (b : Byte) (bs : List Byte) :
    undelivered e (b :: bs) = undelivered e bs ++ [⟨b, e, none⟩] := List.reverse_cons

theorem undelivered_snoc (e : Status) (bs : List Byte) (b : Byte) :
    undelivered e (bs ++ [b]) = ⟨b, e, none⟩ :: undelivered e bs := by
  simp [undelivered]

theorem statuses_undelivered (e : Status) (bs : List Byte) :
    ((undelivered e bs).map Event.status).reverse = List.replicate bs.length e := by
  rw [undelivered, List.map_reverse, List.reverse_reverse, List.map_map]
  exact List.map_const'

theorem deliveries_undelivered (e : Status) (bs : List Byte) : (undelivered e bs).filterMap Event.delivered = [] := by
  simp [undelivered]

theorem State.statuses_of_undelivered {s t : State} {e : Status} {bs : List Byte}
    (h : t.trace = undelivered e bs ++ s.trace) : t.statuses = s.statuses ++ List.replicate bs.length e := by
  rw [State.statuses_append h, statuses_undelivered]

theorem State.frameOutput_of_undelivered {s t : State} {e : Status} {bs : List Byte}
    (h : t.trace = undelivered e bs ++ s.trace) : t.frameOutput = s.frameOutput := by
  rw [State.frameOutput_append h, deliveries_undelivered, List.reverse_nil, List.append_nil]

/-! ## The prefixes of acceptable frames (R28 V2 to V4, R82 to R90) -/

/-- FA accepts every byte of `P` from idle: V2 to V4 of R28, of the bytes below the cursor. -/
structure AcceptablePrefix (P : List Byte) : Prop where
  header0 : 1 ≤ P.length → P.getD 0 0 = Config.HDR0
  header1 : 2 ≤ P.length → P.getD 1 0 = Config.HDR1
  length : 5 ≤ P.length → (P.getD 4 0).toNat ≤ Config.MAXLEN ∧ P.length ≤ (P.getD 4 0).toNat + Config.PREFIX

theorem AcceptablePrefix.of_snoc {P : List Byte} {b : Byte} (h : AcceptablePrefix (P ++ [b])) : AcceptablePrefix P := by
  have hlen : (P ++ [b]).length = P.length + 1 := List.length_append
  have hget : ∀ i < P.length, (P ++ [b]).getD i 0 = P.getD i 0 := fun i hi => List.getD_append _ _ _ _ hi
  refine ⟨fun h1 => ?_, fun h2 => ?_, fun h5 => ?_⟩
  · rw [← hget 0 h1, h.header0 (by omega)]
  · rw [← hget 1 h2, h.header1 (by omega)]
  · rw [← hget 4 h5]
    obtain ⟨hmax, hpos⟩ := h.length (by omega)
    exact ⟨hmax, by omega⟩

/-- The bytes below the cursor are `P`. -/
structure State.HoldsPrefix (s : State) (P : List Byte) : Prop where
  cursor : s.idx.toNat = P.length
  bytes : s.bytes 0 s.idx.toNat = P

theorem State.HoldsPrefix.of_idle {s : State} (h : s.idx = 0) : s.HoldsPrefix [] := by
  constructor <;> simp [h, State.bytes_zero]

theorem State.HoldsPrefix.byteAt {s : State} {P : List Byte} (h : s.HoldsPrefix P) {i : Nat} (hi : i < P.length) :
    s.byteAt i = P.getD i 0 := by
  rw [← h.bytes, State.bytes_getD s s.idx.isLt.le (h.cursor ▸ hi)]

theorem State.HoldsPrefix.pos_eq {s : State} {P : List Byte} (h : s.HoldsPrefix P) (h5 : 5 ≤ P.length) :
    s.pos = (P.getD 4 0).toNat + Config.PREFIX := by
  rw [State.pos, State.len, h.byteAt h5]

theorem State.HoldsPrefix.accepts {s : State} {P : List Byte} {b : Byte} (h : s.HoldsPrefix P)
    (hP : AcceptablePrefix (P ++ [b])) : s.Accepts b := by
  have hlen : (P ++ [b]).length = P.length + 1 := List.length_append
  have hlast : ∀ k, P.length = k → (P ++ [b]).getD k 0 = b := by
    rintro _ rfl
    rw [List.getD_append_right _ _ _ _ le_rfl, Nat.sub_self, List.getD_cons_zero]
  rw [State.Accepts, h.cursor]
  refine ⟨fun h0 => ?_, fun h1 => ?_, fun h4 => ?_, fun h5 => ?_⟩
  · rw [← hlast 0 h0, hP.header0 (by omega)]
  · rw [← hlast 1 h1, hP.header1 (by omega)]
  · rw [← hlast 4 h4]
    exact (hP.length (by omega)).1
  · have hpos := (hP.length (by omega)).2
    rw [List.getD_append _ _ _ _ h5] at hpos
    rw [h.pos_eq h5]
    omega

theorem State.HoldsPrefix.accepted {s : State} {P : List Byte} {b : Byte} (h : s.HoldsPrefix P)
    (hP : AcceptablePrefix (P ++ [b])) : (s.accepted b).HoldsPrefix (P ++ [b]) := by
  have hcursor : (s.accepted b).idx.toNat = s.idx.toNat + 1 := by
    refine (h.accepts hP).idx_add_one_toNat fun h5 => ?_
    rw [State.len, h.byteAt (h.cursor ▸ h5)]
    exact (hP.of_snoc.length (h.cursor ▸ h5)).1
  refine ⟨?_, ?_⟩
  · rw [hcursor, h.cursor, List.length_append, List.length_singleton]
  · rw [hcursor, s.bytes_accepted, h.bytes]

/-- Received from idle, such a prefix stands below the cursor, and every byte of it had status PENDING. -/
theorem State.feed_acceptablePrefix {s : State} (hs : s.idx = 0) {P : List Byte} (hP : AcceptablePrefix P) :
    (s.feed P).HoldsPrefix P ∧ (s.feed P).trace = undelivered .PENDING P ++ s.trace := by
  induction P using List.reverseRecOn with
  | nil => exact ⟨.of_idle hs, rfl⟩
  | append_singleton P b ih =>
    obtain ⟨hholds, htrace⟩ := ih hP.of_snoc
    rw [State.feed_snoc, State.pushByte_accepts (hholds.accepts hP)]
    refine ⟨hholds.accepted hP, ?_⟩
    rw [State.accepted_trace, htrace, undelivered_snoc, List.cons_append]

/-! ## The byte that ends an attempt (R83, R85, R89, R91, R92) -/

/-- The observation of an attempt: the accepted bytes of `P`, and then the event of the byte that ends it. -/
theorem State.feed_attempt_observed {s : State} (hs : s.idx = 0) {P : List Byte} (hP : AcceptablePrefix P) {b : Byte}
    {e : Status} {d : Option (List Byte)} (h : ((s.feed P).pushByte b).trace = ⟨b, e, d⟩ :: (s.feed P).trace) :
    (s.feed (P ++ [b])).statuses = s.statuses ++ List.replicate P.length .PENDING ++ [e] ∧
      (s.feed (P ++ [b])).frameOutput = s.frameOutput ++ d.toList := by
  obtain ⟨-, htrace⟩ := State.feed_acceptablePrefix hs hP
  rw [State.feed_snoc, State.statuses_append (es := [_]) h, State.frameOutput_append (es := [_]) h,
    State.statuses_of_undelivered htrace, State.frameOutput_of_undelivered htrace]
  refine ⟨rfl, ?_⟩
  cases d <;> rfl

/-- A framing error after some accepted bytes. -/
theorem State.feed_rejected {s : State} (hs : s.idx = 0) {P : List Byte} (hP : AcceptablePrefix P) {b : Byte} {e : Status}
    (hr : (s.feed P).Rejects b e) :
    (s.feed (P ++ [b])).idx = 0 ∧ (s.feed (P ++ [b])).st = e ∧
      (s.feed (P ++ [b])).statuses = s.statuses ++ List.replicate P.length .PENDING ++ [e] ∧
      (s.feed (P ++ [b])).frameOutput = s.frameOutput := by
  have hpush := State.pushByte_rejects hr
  obtain ⟨hstatuses, hout⟩ := State.feed_attempt_observed hs hP (hpush ▸ hr.raised_trace)
  refine ⟨?_, ?_, hstatuses, hout.trans (List.append_nil _)⟩ <;> rw [State.feed_snoc, hpush]
  · rfl
  · rfl

/-- All bytes of an acceptable frame but its checksum. -/
structure CompletePrefix (P : List Byte) : Prop extends AcceptablePrefix P where
  complete : P.length = (P.getD 4 0).toNat + Config.PREFIX

theorem CompletePrefix.five_le {P : List Byte} (h : CompletePrefix P) : 5 ≤ P.length :=
  h.complete ▸ Nat.le_add_left 5 _

theorem exists_completePrefix_of_acceptableFrame {F : List Byte} (h : acceptableFrame F = true) :
    ∃ P, CompletePrefix P ∧ F = appendChecksum P := by
  obtain ⟨hwf, hmax⟩ := (acceptableFrame_iff F).1 h
  obtain ⟨c, a, n, content, rfl, hlen⟩ := wellFormedFrame_split hwf
  have hcomplete : ([Config.HDR0, Config.HDR1, c, a, n] ++ content).length = n.toNat + Config.PREFIX := by
    simp only [List.length_append, List.length_cons, List.length_nil, hlen, Config.PREFIX]
    omega
  have hP : AcceptablePrefix ([Config.HDR0, Config.HDR1, c, a, n] ++ content) :=
    ⟨fun _ => rfl, fun _ => rfl, fun _ => ⟨hmax, hcomplete.le⟩⟩
  exact ⟨_, ⟨hP, hcomplete⟩, rfl⟩

/-- A change outside the header and the length leaves the prefix one that FA accepts. -/
theorem CompletePrefix.set {P : List Byte} (h : CompletePrefix P) {p : Nat} (h0 : p ≠ 0) (h1 : p ≠ 1) (h4 : p ≠ 4)
    (v : Byte) : CompletePrefix (P.set p v) := by
  have hget : ∀ i, p ≠ i → (P.set p v).getD i 0 = P.getD i 0 := fun i hi => by
    simp only [List.getD, List.getElem?_set_ne hi]
  refine ⟨⟨?_, ?_, ?_⟩, ?_⟩ <;> rw [List.length_set]
  · rw [hget 0 h0]; exact h.header0
  · rw [hget 1 h1]; exact h.header1
  · rw [hget 4 h4]; exact h.length
  · rw [hget 4 h4]; exact h.complete

theorem State.HoldsPrefix.bytes_chkOk {s : State} {P : List Byte} (h : s.HoldsPrefix P) (b : Byte) :
    (s.chkOk b).bytes 0 (P ++ [b]).length = P ++ [b] := by
  rw [List.length_append, List.length_singleton, ← h.cursor]
  calc (s.chkOk b).bytes 0 (s.idx.toNat + 1)
    _ = (s.accepted b).bytes 0 (s.idx.toNat + 1) := State.bytes_congr rfl _ _
    _ = P ++ [b] := by rw [s.bytes_accepted, h.bytes]

section AtChecksum

variable {s : State} {P : List Byte} (h : s.HoldsPrefix P) (hP : CompletePrefix P)

include h hP

theorem State.HoldsPrefix.cursor_eq_pos : 5 ≤ s.idx.toNat ∧ s.pos = s.idx.toNat := by
  rw [h.pos_eq hP.five_le, h.cursor, ← hP.complete]
  exact ⟨hP.five_le, rfl⟩

theorem State.HoldsPrefix.bodySum_eq : s.bodySum = checksum P := by
  rw [State.bodySum, (h.cursor_eq_pos hP).2, h.bytes]

theorem State.HoldsPrefix.frameValue_chkOk (b : Byte) : (s.chkOk b).frameValue = P ++ [b] := by
  obtain ⟨h5, hpos⟩ := h.cursor_eq_pos hP
  have hlen : s.pos + 1 = (P ++ [b]).length := by
    rw [hpos, h.cursor, List.length_append, List.length_singleton]
  rw [State.frameValue, State.pos_chkOk b h5, hlen, h.bytes_chkOk]

end AtChecksum

/-- R101: an acceptable frame received from idle. -/
theorem State.feed_acceptableFrame {s : State} (hs : s.idx = 0) {F : List Byte} (hF : acceptableFrame F = true) :
    (s.feed F).idx = 0 ∧ (s.feed F).fc = true ∧ (s.feed F).st = .FRAME ∧ (s.feed F).bytes 0 F.length = F ∧
      (s.feed F).statuses = s.statuses ++ List.replicate (F.length - 1) .PENDING ++ [.FRAME] ∧
      (s.feed F).frameOutput = s.frameOutput ++ [F] := by
  obtain ⟨P, hP, rfl⟩ := exists_completePrefix_of_acceptableFrame hF
  obtain ⟨hholds, -⟩ := State.feed_acceptablePrefix hs hP.toAcceptablePrefix
  obtain ⟨h5, hpos⟩ := hholds.cursor_eq_pos hP
  have hpush := State.pushByte_chkOk h5 hpos.le (hholds.bodySum_eq hP).symm
  obtain ⟨hstatuses, hout⟩ := State.feed_attempt_observed hs hP.toAcceptablePrefix (hpush ▸ State.chkOk_trace _ _)
  have hlen : (appendChecksum P).length - 1 = P.length := by simp [appendChecksum]
  rw [hpush, hholds.frameValue_chkOk hP] at hout
  rw [hlen, appendChecksum]
  refine ⟨?_, ?_, ?_, ?_, hstatuses, hout⟩ <;> rw [State.feed_snoc, hpush]
  · rfl
  · rfl
  · rfl
  · exact hholds.bytes_chkOk _

/-- R92 from idle: a complete prefix and then a byte that is not its checksum. -/
theorem State.feed_wrongChecksum {s : State} (hs : s.idx = 0) {P : List Byte} (hP : CompletePrefix P) {b : Byte}
    (hb : b ≠ checksum P) :
    (s.feed (P ++ [b])).idx = 0 ∧ (s.feed (P ++ [b])).st = .E_CHK ∧
      (s.feed (P ++ [b])).frameOutput = s.frameOutput ∧
      (s.feed (P ++ [b])).statuses = s.statuses ++ List.replicate P.length .PENDING ++ [.E_CHK] := by
  obtain ⟨hholds, -⟩ := State.feed_acceptablePrefix hs hP.toAcceptablePrefix
  obtain ⟨h5, hpos⟩ := hholds.cursor_eq_pos hP
  have hpush := State.pushByte_chkBad h5 hpos.le (hholds.bodySum_eq hP ▸ hb)
  obtain ⟨hstatuses, hout⟩ := State.feed_attempt_observed hs hP.toAcceptablePrefix (hpush ▸ State.chkBad_trace _ b)
  refine ⟨?_, ?_, hout.trans (List.append_nil _), hstatuses⟩ <;> rw [State.feed_snoc, hpush]
  · rfl
  · rfl

/-- R89 from idle: a header, a command, an algorithm id and a length of 123 or more. -/
theorem State.feed_longLength {s : State} (hs : s.idx = 0) (c a : Byte) {n : Byte} (hn : 123 ≤ n.toNat) :
    (s.feed [0x55, 0xAA, c, a, n]).idx = 0 ∧ (s.feed [0x55, 0xAA, c, a, n]).st = .E_LEN ∧
      (s.feed [0x55, 0xAA, c, a, n]).statuses = s.statuses ++ [.PENDING, .PENDING, .PENDING, .PENDING, .E_LEN] ∧
      (s.feed [0x55, 0xAA, c, a, n]).frameOutput = s.frameOutput := by
  have hP : AcceptablePrefix [0x55, 0xAA, c, a] := ⟨fun _ => rfl, fun _ => rfl, by simp⟩
  have hcursor := (State.feed_acceptablePrefix hs hP).1.cursor
  obtain ⟨hidx, hst, hstatuses, hout⟩ := State.feed_rejected hs hP (.inr (.inr ⟨rfl, hcursor, hn⟩))
  exact ⟨hidx, hst, hstatuses.trans (List.append_assoc _ _ _), hout⟩

theorem State.feed_frames {s : State} (hs : s.idx = 0) {Fs : List (List Byte)}
    (hFs : ∀ F ∈ Fs, acceptableFrame F = true) :
    (s.feed Fs.flatten).frameOutput = s.frameOutput ++ Fs ∧ (s.feed Fs.flatten).idx = 0 := by
  induction Fs generalizing s with
  | nil => exact ⟨(List.append_nil _).symm, hs⟩
  | cons F Fs ih =>
    obtain ⟨hF, hrest⟩ := List.forall_mem_cons.1 hFs
    obtain ⟨hidx, -, -, -, -, hout⟩ := State.feed_acceptableFrame hs hF
    rw [List.flatten_cons, State.feed_append]
    obtain ⟨houts, hidle⟩ := ih hidx hrest
    exact ⟨by rw [houts, hout, List.append_assoc, List.singleton_append], hidle⟩

/-! ## One changed byte (R110) -/

/-- A frame changed outside its header and length is a complete prefix and a byte that is not its checksum. -/
theorem exists_completePrefix_of_set {F : List Byte} {p : Nat} {v : Byte} (hF : acceptableFrame F = true)
    (hp : p < F.length) (h0 : p ≠ 0) (h1 : p ≠ 1) (h4 : p ≠ 4) (hv : F.getD p 0 ≠ v) :
    ∃ P b, CompletePrefix P ∧ b ≠ checksum P ∧ F.set p v = P ++ [b] := by
  obtain ⟨P, hP, rfl⟩ := exists_completePrefix_of_acceptableFrame hF
  have hbad := frameOk_set_appendChecksum P hp hv
  rw [appendChecksum] at hp hbad ⊢
  rw [List.length_append, List.length_singleton] at hp
  obtain hlt | rfl := Nat.lt_succ_iff_lt_or_eq.1 hp
  · rw [List.set_append_left _ _ hlt] at hbad ⊢
    exact ⟨_, _, hP.set h0 h1 h4 v, (frameOk_snoc_eq_false_iff _ _).1 hbad, rfl⟩
  · rw [List.set_append_right _ _ le_rfl, Nat.sub_self, List.set_cons_zero] at hbad ⊢
    exact ⟨_, _, hP, (frameOk_snoc_eq_false_iff _ _).1 hbad, rfl⟩

/-- A longer length moves the checksum position behind the frame. -/
theorem acceptablePrefix_set_length {F : List Byte} {v : Byte} (hF : acceptableFrame F = true)
    (hlt : (F.getD 4 0).toNat < v.toNat) (hmax : v.toNat ≤ Config.MAXLEN) : AcceptablePrefix (F.set 4 v) := by
  obtain ⟨hwf, -⟩ := (acceptableFrame_iff F).1 hF
  obtain ⟨c, a, n, content, rfl, hlen⟩ := wellFormedFrame_split hwf
  have hn : n.toNat < v.toNat := hlt
  refine ⟨fun _ => rfl, fun _ => rfl, fun _ => ⟨hmax, ?_⟩⟩
  show _ ≤ v.toNat + 5
  simp only [List.length_set, List.length_append, List.length_cons, List.length_nil]
  omega

/-! ## Bytes that start no frame (R83, R103) -/

theorem State.pushByte_headerless {s : State} (hs : s.idx = 0) {b : Byte} (hb : b ≠ 0x55) : s.pushByte b =
    { s with fc := false, st := .E_HDR0, trace := ⟨b, .E_HDR0, none⟩ :: s.trace } := by
  have hr : s.Rejects b .E_HDR0 := .inl ⟨rfl, congrArg BitVec.toNat hs, hb⟩
  rw [hr.pushByte_eq, ← hs]

theorem State.feed_headerless {s : State} (hs : s.idx = 0) {g : List Byte} (hne : g ≠ []) (hg : ∀ b ∈ g, b ≠ 0x55) :
    s.feed g = { s with fc := false, st := .E_HDR0, trace := undelivered .E_HDR0 g ++ s.trace } := by
  induction g generalizing s with
  | nil => exact absurd rfl hne
  | cons b g ih =>
    obtain ⟨hb, hrest⟩ := List.forall_mem_cons.1 hg
    rw [State.feed_cons, State.pushByte_headerless hs hb]
    by_cases hnil : g = []
    · subst hnil; rfl
    · rw [ih (s := { s with fc := false, st := .E_HDR0, trace := ⟨b, .E_HDR0, none⟩ :: s.trace }) hs hnil hrest,
        undelivered_cons, List.append_assoc, List.singleton_append]

theorem State.feed_headerless_observed {s : State} (hs : s.idx = 0) {g : List Byte} (hne : g ≠ [])
    (hg : ∀ b ∈ g, b ≠ 0x55) :
    (s.feed g).idx = 0 ∧ (s.feed g).statuses = s.statuses ++ List.replicate g.length .E_HDR0 ∧
      (s.feed g).frameOutput = s.frameOutput := by
  have hfeed := State.feed_headerless hs hne hg
  have htrace : (s.feed g).trace = undelivered .E_HDR0 g ++ s.trace := by rw [hfeed]
  exact ⟨by rw [hfeed, hs], State.statuses_of_undelivered htrace, State.frameOutput_of_undelivered htrace⟩

/-! ## Bounds on a run (R106, R111) -/

theorem State.nDelivered_cons_none {s t : State} {b : Byte} {e : Status} (h : t.trace = ⟨b, e, none⟩ :: s.trace) :
    t.nDelivered = s.nDelivered := State.nDelivered_cons h

/-- R111 for one PUSH: a delivery takes the cursor from 5 or more back to 0, and no other PUSH delivers. -/
theorem State.deliveries_pushByte (s : State) (b : Byte) :
    6 * (s.pushByte b).nDelivered + (s.pushByte b).idx.toNat ≤ 6 * s.nDelivered + s.idx.toNat + 1 := by
  obtain ⟨_, e⟩ | ⟨err, hr, e⟩ | ⟨h5, _, _, e⟩ | ⟨_, _, _, e⟩ := State.pushByte_cases s b <;> rw [e]
  · have hidx : (s.accepted b).idx.toNat ≤ s.idx.toNat + 1 := by rw [State.accepted_idx]; bv_omega
    rw [State.nDelivered_cons_none (s.accepted_trace b)]
    omega
  · have hidx : ((s.raiseError err).observe b).idx.toNat = 0 := rfl
    rw [State.nDelivered_cons_none hr.raised_trace, hidx]
    omega
  · have hidx : (s.chkOk b).idx.toNat = 0 := rfl
    rw [State.nDelivered_cons (s.chkOk_trace b), hidx, Option.toList_some, List.length_singleton]
    omega
  · have hidx : (s.chkBad b).idx.toNat = 0 := rfl
    rw [State.nDelivered_cons_none (s.chkBad_trace b), hidx]
    omega

theorem State.deliveries_feed (s : State) (bs : List Byte) :
    6 * (s.feed bs).nDelivered + (s.feed bs).idx.toNat ≤ 6 * s.nDelivered + s.idx.toNat + bs.length := by
  induction bs generalizing s with
  | nil => exact le_rfl
  | cons b bs ih =>
    calc 6 * ((s.pushByte b).feed bs).nDelivered + ((s.pushByte b).feed bs).idx.toNat
      _ ≤ 6 * (s.pushByte b).nDelivered + (s.pushByte b).idx.toNat + bs.length := ih (s.pushByte b)
      _ ≤ 6 * s.nDelivered + s.idx.toNat + 1 + bs.length := Nat.add_le_add_right (s.deliveries_pushByte b) _
      _ = 6 * s.nDelivered + s.idx.toNat + (b :: bs).length := by rw [List.length_cons]; omega

/-- R93 in a state a run reaches: the cursor goes up by one or returns to 0. -/
theorem State.Inv.pushByte_idx {s : State} (h : s.Inv) (b : Byte) :
    (s.pushByte b).idx.toNat = s.idx.toNat + 1 ∨ (s.pushByte b).idx = 0 := by
  obtain ⟨ha, e⟩ | ⟨_, _, e⟩ | ⟨_, _, _, e⟩ | ⟨_, _, _, e⟩ := State.pushByte_cases s b <;> rw [e]
  · exact .inl (h.accepted_idx_toNat ha)
  all_goals exact .inr rfl

/-- R106: the cursor cannot go up `128 - IDX` times in a row, since it stays below 128. -/
theorem State.Inv.exists_idle_prefix {s : State} (h : s.Inv) {bs : List Byte} (hlen : bs.length = 128 - s.idx.toNat) :
    ∃ j, 1 ≤ j ∧ j ≤ bs.length ∧ (s.feed (bs.take j)).idx = 0 := by
  induction bs generalizing s with
  | nil =>
    have := s.idx.isLt
    rw [List.length_nil] at hlen
    omega
  | cons b bs ih =>
    obtain hup | hidle := h.pushByte_idx b
    · rw [List.length_cons] at hlen
      obtain ⟨j, h1, hj, hidle⟩ := ih (h.pushByte b) (by omega)
      exact ⟨j + 1, by omega, Nat.succ_le_succ hj, hidle⟩
    · exact ⟨1, le_rfl, Nat.succ_le_succ (Nat.zero_le _), hidle⟩

end Sys2Proof.Machine

namespace Sys2Proof.Certificates

open Sys2Proof.Machine

/-! ## Family 42: runs that never stop, and the cut of a stream -/

/-- Settles O43: a step keeps every invariant that RESET, a write of `ACC` and a PUSH keep, the empty one included. -/
theorem nothingEverStops : Obligations.NothingEverStops := by
  refine fun s => ⟨?_, ⟨_, exec_reset s⟩, fun b => ⟨_, exec_push b s⟩, ⟨_, exec_ckClr s⟩, fun b => ⟨_, exec_ckAdd b s⟩⟩
  obtain ⟨t, ht, -⟩ := step_keeps (P := fun _ => True) (fun _ _ _ => trivial) (fun _ _ => trivial)
    (fun _ _ _ => trivial) (fun _ _ _ => trivial) s trivial
  exact ⟨t, ht⟩

theorem runSteps_add_next {m : Nat} (n : Nat) {s t : State} (h : runSteps m s = .next t) :
    runSteps (m + n) s = runSteps n t := by
  induction m generalizing s with
  | zero => cases h; rw [Nat.zero_add]
  | succ m ih =>
    obtain ⟨u, hu⟩ := (nothingEverStops s).1
    rw [runSteps_succ_next hu] at h
    rw [Nat.succ_add, runSteps_succ_next hu, ih h]

/-- Chunk by chunk (`runSteps_ofBytes`), the steps over all cuts are FEED of the stream. -/
theorem runSteps_cuts (cuts : List (List Byte)) (rest : List Input) (s : State) :
    runSteps cuts.flatten.length { s with inputs := cuts.flatMap Input.ofBytes ++ rest } =
      .next (State.feed { s with inputs := rest } cuts.flatten) := by
  induction cuts generalizing s with
  | nil => rfl
  | cons bs cuts ih =>
    have hchunk := runSteps_ofBytes bs (cuts.flatMap Input.ofBytes ++ rest) s
    rw [State.feed_setInputs] at hchunk
    rw [List.flatten_cons, List.flatMap_cons, List.length_append, List.append_assoc, runSteps_add_next _ hchunk, ih,
      State.feed_append, State.feed_setInputs s bs rest]

/-- One clock edge with the strobe of `PUSH` and the byte (R60). -/
def pushEdge (b : Byte) : Input := .edge ⟨0x4, b, 0⟩

theorem step_pushEdge (s : State) (b : Byte) (is : List Input) :
    step { s with inputs := pushEdge b :: is } = .next { s.pushByte b with inputs := is } := by
  have hactions : actionsOf ⟨0x4, b, 0⟩ = [.push b] := actionsOf_push b
  rw [step_edge (p := ⟨0x4, b, 0⟩) (rest := is) rfl, hactions, runInstrs_single, exec_push, ← State.pushByte_setInputs]

/-- With one byte at an edge each, as many steps as there are bytes are FEED of them too. -/
theorem runSteps_pushEdges (bs : List Byte) (rest : List Input) (s : State) :
    runSteps bs.length { s with inputs := bs.map pushEdge ++ rest } =
      .next (State.feed { s with inputs := rest } bs) := by
  induction bs generalizing s with
  | nil => rfl
  | cons b bs ih =>
    rw [List.length_cons, List.map_cons, List.cons_append, runSteps_succ_next (step_pushEdge s b _), ih, State.feed_cons,
      State.pushByte_setInputs s b rest]

/-- Settles O44: in chunks or at edges, the steps are FEED of the stream. -/
theorem chunkingIsInvisible : Obligations.ChunkingIsInvisible := by
  refine fun s cuts rest => ⟨?_, ?_⟩ <;> rw [runPushes_eq_feed]
  · exact runSteps_cuts cuts rest s
  · exact runSteps_pushEdges cuts.flatten rest s

/-! ## Family 42: frames received from idle -/

/-- Settles O45: `State.feed_acceptableFrame`, and a PUSH leaves `ACC` alone. -/
theorem acceptableFrameIsDelivered : Obligations.AcceptableFrameIsDelivered := by
  intro s F hs hF
  obtain ⟨hidx, hfc, hst, hbytes, hstatuses, hout⟩ := State.feed_acceptableFrame hs hF
  exact ⟨s.feed F, runPushes_eq_feed F s, hidx, hfc, hst, hbytes, hstatuses, hout, s.feed_acc F⟩

/-- Settles O46: of the four outcomes of a PUSH only CHK.OK delivers, and the observation stays sound. -/
theorem deliveredFrameIsSound : Obligations.DeliveredFrameIsSound := by
  intro s b hgood
  refine ⟨s.pushByte b, rfl, ?_⟩
  have hsound := (hgood.pushByte b).history.sound
  obtain ⟨_, e⟩ | ⟨_, hr, e⟩ | ⟨h5, hpos, _, e⟩ | ⟨_, _, _, e⟩ := State.pushByte_cases s b <;> rw [e] at hsound ⊢
  · exact ⟨fun _ => State.frameOutput_of_undelivered (bs := [b]) (s.accepted_trace b), by simp⟩
  · exact ⟨fun _ => State.frameOutput_of_undelivered (bs := [b]) hr.raised_trace, fun hf => absurd hf hr.ne_frame.1⟩
  · obtain ⟨-, hdelivered, -⟩ := hsound
    obtain ⟨hV, hlast⟩ := hdelivered _ rfl
    refine ⟨fun hn => absurd rfl hn, fun _ => ⟨(s.chkOk b).frameValue, ?_, ?_, hV, hlast⟩⟩
    · exact State.frameOutput_append (es := [_]) (s.chkOk_trace b)
    · exact hgood.inv.frameValue_chkOk b h5 hpos
  · exact ⟨fun _ => State.frameOutput_of_undelivered (bs := [b]) (s.chkBad_trace b), by simp⟩

/-- Settles O47: every byte is a H0.MISS (`State.feed_headerless`). -/
theorem streamWithoutHeaderByteIsInert : Obligations.StreamWithoutHeaderByteIsInert := by
  intro s g hs hne hg
  obtain ⟨-, hstatuses, hout⟩ := State.feed_headerless_observed hs hne hg
  exact ⟨s.feed g, runPushes_eq_feed g s, by rw [State.feed_headerless hs hne hg], hstatuses, hout⟩

/-- Settles O48: the state after `g` is idle, and there the frame is delivered. -/
theorem resynchronisesWhenIdle : Obligations.ResynchronisesWhenIdle := by
  intro s u g F hu hidle hF
  rw [runPushes_eq_feed] at hu
  cases hu
  obtain ⟨hidx, -, -, -, -, hout⟩ := State.feed_acceptableFrame hidle hF
  exact ⟨s.feed (g ++ F), runPushes_eq_feed _ s, by rw [State.feed_append, hout], by rw [State.feed_append, hidx]⟩

/-- Settles O50: the prefix of `State.Inv.exists_idle_prefix`. -/
theorem attemptEndsWithin128Bytes : Obligations.AttemptEndsWithin128Bytes := by
  intro s bs hinv _ hlen
  obtain ⟨j, h1, hj, hidle⟩ := hinv.exists_idle_prefix hlen
  exact ⟨j, s.feed (bs.take j), h1, hj, runPushes_eq_feed _ s, hidle⟩

/-- Settles O51: each frame is delivered and leaves the block idle for the next one. -/
theorem backToBackFramesAreDelivered : Obligations.BackToBackFramesAreDelivered := fun s _ hs hFs =>
  ⟨_, runPushes_eq_feed _ s, State.feed_frames hs hFs⟩

/-- Settles O52: up to 122 bytes `mk_frame` makes an acceptable frame, and from 123 on its length byte is rejected. -/
theorem roundTripWithTheEncoder : Obligations.RoundTripWithTheEncoder := by
  refine fun s c a content hs => ⟨fun hle => ?_, fun hge hle => ?_⟩
  · have hF := (acceptableFrame_mkFrame c a (by omega)).2 hle
    obtain ⟨-, -, -, -, -, hout⟩ := State.feed_acceptableFrame hs hF
    exact ⟨_, mkFrame c a content, runPushes_eq_feed _ s, hout, rfl, rfl, frameContent_mkFrame c a content⟩
  · have hn : 123 ≤ (BitVec.ofNat 8 content.length).toNat := by
      rw [BitVec.toNat_ofNat]
      omega
    obtain ⟨hidx, hst, -, hout⟩ := State.feed_longLength hs c a hn
    exact ⟨_, runPushes_eq_feed _ s, hidx, hst, hout⟩

/-! ## Family 42: one changed byte (R110) -/

/-- Settles O53: header and length stand as they were, so FA goes on to the checksum position, and there the checksum is
wrong. -/
theorem changedBodyByteEndsInChecksumError : Obligations.ChangedBodyByteEndsInChecksumError := by
  intro s F p v hs hF hp h0 h1 h4 hv
  obtain ⟨P, b, hP, hb, hset⟩ := exists_completePrefix_of_set hF hp h0 h1 h4 hv
  have hlen : F.length - 1 = P.length := by
    rw [← List.length_set (as := F) (i := p) (a := v), hset, List.length_append, List.length_singleton,
      Nat.add_sub_cancel]
  rw [hset, hlen]
  exact ⟨_, runPushes_eq_feed _ s, State.feed_wrongChecksum hs hP hb⟩

/-- Settles O54, position by position. -/
theorem changedHeaderOrLengthByte : Obligations.ChangedHeaderOrLengthByte := by
  intro s F v hs hF
  obtain ⟨hwf, -⟩ := (acceptableFrame_iff F).1 hF
  obtain ⟨c, a, n, content, hsplit, -⟩ := wellFormedFrame_split hwf
  refine ⟨fun hv => ?header0, fun hv => ?header1, fun hv => ?tooLong, fun hlt hmax => ?longer⟩
  case header0 =>
    have htake : (F.set 0 v).take 2 = [v, 0xAA] := by rw [hsplit]; rfl
    rw [htake]
    exact ⟨_, runPushes_eq_feed _ s, State.feed_headerless_observed hs (List.cons_ne_nil _ _) (by simpa using hv)⟩
  case header1 =>
    have htake : (F.set 1 v).take 2 = [0x55] ++ [v] := by rw [hsplit]; rfl
    have hP : AcceptablePrefix [0x55] := ⟨fun _ => rfl, by simp, by simp⟩
    have hcursor := (State.feed_acceptablePrefix hs hP).1.cursor
    obtain ⟨hidx, -, hstatuses, hout⟩ := State.feed_rejected hs hP (.inr (.inl ⟨rfl, hcursor, hv⟩))
    rw [htake]
    exact ⟨_, runPushes_eq_feed _ s, hidx, hstatuses.trans (List.append_assoc _ _ _), hout⟩
  case tooLong =>
    have htake : (F.set 4 v).take 5 = [0x55, 0xAA, c, a, v] := by rw [hsplit]; rfl
    obtain ⟨hidx, -, hstatuses, hout⟩ := State.feed_longLength hs c a hv
    rw [htake]
    exact ⟨_, runPushes_eq_feed _ s, hidx, hstatuses, hout⟩
  case longer =>
    obtain ⟨hholds, htrace⟩ := State.feed_acceptablePrefix hs (acceptablePrefix_set_length hF hlt hmax)
    have hlen : (F.set 4 v).length = F.length := List.length_set
    exact ⟨_, runPushes_eq_feed _ s, hholds.cursor.trans hlen, hlen ▸ State.statuses_of_undelivered htrace,
      State.frameOutput_of_undelivered htrace⟩

/-! ## Family 42: the count of deliveries, and a false frame -/

/-- Settles O55: `State.deliveries_feed`. -/
theorem deliveriesAreCounted : Obligations.DeliveriesAreCounted := fun s bs =>
  ⟨s.feed bs, runPushes_eq_feed bs s, s.deliveries_feed bs⟩

/-- Settles O49: the first stream is a byte without a frame, an acceptable frame and a byte without a frame; the second is
such a byte and the first 19 bytes of a frame of 34, all of them accepted. -/
theorem falseSynchronisation : Obligations.FalseSynchronisation := by
  intro s hs
  obtain ⟨hidle, hstatuses, hout⟩ := State.feed_headerless_observed (g := [0xAA]) hs (List.cons_ne_nil _ _) (by decide)
  refine ⟨⟨_, runPushes_eq_feed _ s, ?_⟩, ⟨_, runPushes_eq_feed _ s, ?_⟩⟩
  · have hF : acceptableFrame [0x55, 0xAA, 0x55, 0xAA, 0x01, 0x01, 0x00] = true := by decide
    obtain ⟨hidleF, -, -, -, hstatusesF, houtF⟩ := State.feed_acceptableFrame hidle hF
    obtain ⟨-, hstatusesLast, houtLast⟩ :=
      State.feed_headerless_observed (g := [0x01]) hidleF (List.cons_ne_nil _ _) (by decide)
    have hcut : ([0xAA, 0x55, 0xAA, 0x55, 0xAA, 0x01, 0x01, 0x00, 0x01] : List Byte) =
        [0xAA] ++ [0x55, 0xAA, 0x55, 0xAA, 0x01, 0x01, 0x00] ++ [0x01] := rfl
    rw [hcut, State.feed_append, State.feed_append, hstatusesLast, hstatusesF, hstatuses, houtLast, houtF, hout]
    exact ⟨by simp only [List.append_assoc]; rfl, rfl⟩
  · have hP : AcceptablePrefix ([0x55, 0xAA] ++ [0x55, 0xAA, 0x1C, 0x01, 0x0B, 0x03, 0x00, 0x0A, 0x00, 0x14, 0x00, 0x05,
        0x00, 0x06, 0x00, 0x00, 0x53]) := ⟨fun _ => rfl, fun _ => rfl, by decide⟩
    obtain ⟨⟨hcursor, -⟩, htrace⟩ := State.feed_acceptablePrefix hidle hP
    have hcut (bs : List Byte) : s.feed ([0xAA, 0x55, 0xAA] ++ bs) = (s.feed [0xAA]).feed ([0x55, 0xAA] ++ bs) := rfl
    rw [hcut]
    exact ⟨BitVec.eq_of_toNat_eq hcursor, (State.frameOutput_of_undelivered htrace).trans hout⟩

end Sys2Proof.Certificates

/-! The statements of 60_exceptions.md: the one cause of each status, and all that an error does. -/

namespace Sys2Proof.Machine

/-! ## The cause of each status (R113 to R117) -/

/-- The one condition under which a PUSH of `b` produces the status. -/
def State.CauseOf (s : State) (b : Byte) : Status → Prop
  | .PENDING => s.Accepts b
  | .FRAME => (5 ≤ s.idx.toNat ∧ s.pos ≤ s.idx.toNat) ∧ b = s.bodySum
  | .E_HDR0 => s.idx.toNat = 0 ∧ b ≠ Config.HDR0
  | .E_HDR1 => s.idx.toNat = 1 ∧ b ≠ Config.HDR1
  | .E_LEN => s.idx.toNat = 4 ∧ Config.MAXLEN < b.toNat
  | .E_CHK => (5 ≤ s.idx.toNat ∧ s.pos ≤ s.idx.toNat) ∧ b ≠ s.bodySum

theorem State.rejects_iff {s : State} {b : Byte} {e : Status} :
    s.Rejects b e ↔ (e = .E_HDR0 ∨ e = .E_HDR1 ∨ e = .E_LEN) ∧ s.CauseOf b e := by
  constructor
  · rintro (⟨rfl, hc⟩ | ⟨rfl, hc⟩ | ⟨rfl, hc⟩)
    · exact ⟨.inl rfl, hc⟩
    · exact ⟨.inr (.inl rfl), hc⟩
    · exact ⟨.inr (.inr rfl), hc⟩
  · rintro ⟨rfl | rfl | rfl, hc⟩
    · exact .inl ⟨rfl, hc⟩
    · exact .inr (.inl ⟨rfl, hc⟩)
    · exact .inr (.inr ⟨rfl, hc⟩)

theorem State.causeOf_pushByte_st (s : State) (b : Byte) : s.CauseOf b (s.pushByte b).st := by
  obtain ⟨ha, e⟩ | ⟨_, hr, e⟩ | ⟨h5, hpos, hb, e⟩ | ⟨h5, hpos, hb, e⟩ := State.pushByte_cases s b <;> rw [e]
  · exact ha
  · exact (State.rejects_iff.1 hr).2
  · exact ⟨⟨h5, hpos⟩, hb⟩
  · exact ⟨⟨h5, hpos⟩, hb⟩

theorem State.CauseOf.pushByte_st {s : State} {b : Byte} {e : Status} (h : s.CauseOf b e) : (s.pushByte b).st = e := by
  cases e with
  | PENDING => exact congrArg State.st (State.pushByte_accepts h)
  | FRAME =>
    obtain ⟨⟨h5, hpos⟩, hb⟩ := h
    exact congrArg State.st (State.pushByte_chkOk h5 hpos hb)
  | E_HDR0 => exact congrArg State.st (State.pushByte_rejects (State.rejects_iff.2 ⟨.inl rfl, h⟩))
  | E_HDR1 => exact congrArg State.st (State.pushByte_rejects (State.rejects_iff.2 ⟨.inr (.inl rfl), h⟩))
  | E_LEN => exact congrArg State.st (State.pushByte_rejects (State.rejects_iff.2 ⟨.inr (.inr rfl), h⟩))
  | E_CHK =>
    obtain ⟨⟨h5, hpos⟩, hb⟩ := h
    exact congrArg State.st (State.pushByte_chkBad h5 hpos hb)

/-- A PUSH produces a status exactly on its cause; so no two causes hold at once (R119). -/
theorem State.pushByte_st_iff (s : State) (b : Byte) (e : Status) : (s.pushByte b).st = e ↔ s.CauseOf b e :=
  ⟨fun h => h ▸ s.causeOf_pushByte_st b, State.CauseOf.pushByte_st⟩

theorem State.pushByte_fc_iff (s : State) (b : Byte) : (s.pushByte b).fc = true ↔ (s.pushByte b).st = .FRAME := by
  obtain ⟨_, e⟩ | ⟨_, hr, e⟩ | ⟨_, _, _, e⟩ | ⟨_, _, _, e⟩ := State.pushByte_cases s b <;> rw [e]
  · simp
  · simp [hr.ne_frame.1]
  · simp
  · simp

/-- The event of a PUSH in full; what it delivers is read after the action (R98). -/
theorem State.pushByte_event (s : State) (b : Byte) : (s.pushByte b).trace =
    ⟨b, (s.pushByte b).st, if (s.pushByte b).st = .FRAME then some (s.pushByte b).frameValue else none⟩ :: s.trace := by
  obtain ⟨_, e⟩ | ⟨_, _, e⟩ | ⟨_, _, _, e⟩ | ⟨_, _, _, e⟩ := State.pushByte_cases s b <;> rw [e] <;> rfl

end Sys2Proof.Machine

namespace Sys2Proof.Certificates

open Sys2Proof.Machine

/-! ## Family 60: errors -/

/-- Settles O26: `State.pushByte_st_iff`, status by status, with the cursor read as a number. -/
theorem statusOfEveryPush : Obligations.StatusOfEveryPush := by
  refine ⟨fun s b => ⟨s.pushByte b, rfl, ?hdr0, ?hdr1, ?len, s.pushByte_st_iff b .E_CHK, s.pushByte_st_iff b .FRAME,
    s.pushByte_fc_iff b, s.pushByte_event b⟩, rfl, rfl, rfl, rfl, rfl, rfl⟩
  case hdr0 => rw [BitVec.toNat_eq (x := s.idx)]; exact s.pushByte_st_iff b .E_HDR0
  case hdr1 => rw [BitVec.toNat_eq (x := s.idx)]; exact s.pushByte_st_iff b .E_HDR1
  case len => rw [BitVec.toNat_eq (x := s.idx)]; exact s.pushByte_st_iff b .E_LEN

/-- Settles O27: the cause of the status names the outcome of the PUSH, a framing error or CHK.BAD. -/
theorem errorDoesNothingElse : Obligations.ErrorDoesNothingElse := by
  refine fun s b => ⟨s.pushByte b, rfl, fun h => ?framing, fun h => ?checksum⟩
  case framing =>
    rw [State.pushByte_rejects (State.rejects_iff.2 ⟨h, s.causeOf_pushByte_st b⟩)]
    exact ⟨rfl, rfl, rfl, rfl⟩
  case checksum =>
    obtain ⟨⟨h5, hpos⟩, hb⟩ := (s.pushByte_st_iff b .E_CHK).1 h
    rw [State.pushByte_chkBad h5 hpos hb]
    exact ⟨rfl, rfl, rfl, rfl⟩

end Sys2Proof.Certificates

/-! The statements of 70_reset_and_hazards.md: RESET, a stray header byte, and how long a delivered frame stands. -/

namespace Sys2Proof.Machine

/-! ## RESET at an edge (R60, R133) -/

theorem actionsOf_reset {p : Ports} (h : p.strobes.getLsbD 3 = true) : actionsOf p = [.reset] := by
  rw [actionsOf_bits, if_pos h]

/-! ## The header of a delivered frame (R28 V6, R138) -/

/-- The header bytes stand in the buffer, as after a delivery. -/
def State.HeaderStands (s : State) : Prop := s.byteAt 0 = Config.HDR0 ∧ s.byteAt 1 = Config.HDR1

/-- At cursor 0 or 1 a PUSH can only store the header byte that stands there already. -/
theorem State.HeaderStands.pushByte_byteAt {s : State} (h : s.HeaderStands) (hidx : s.idx.toNat ≤ 1) (b : Byte)
    (i : Nat) : (s.pushByte b).byteAt i = s.byteAt i := by
  by_cases hi : i = s.idx.toNat
  · subst hi
    obtain ⟨⟨hb0, hb1, -⟩, e⟩ | ⟨_, _, e⟩ | ⟨h5, _⟩ | ⟨h5, _⟩ := State.pushByte_cases s b
    · rw [e, s.byteAt_accepted_self]
      obtain hc | hc := Nat.le_one_iff_eq_zero_or_eq_one.1 hidx
      · rw [hb0 hc, hc, h.1]
      · rw [hb1 hc, hc, h.2]
    · rw [e]; rfl
    all_goals omega
  · exact s.pushByte_byteAt_ne b hi

/-- While the cursor cannot have got past 2, no byte of the buffer has changed. -/
theorem State.HeaderStands.feed_byteAt {s : State} (h : s.HeaderStands) (hinv : s.Inv) {bs : List Byte}
    (hlen : s.idx.toNat + bs.length ≤ 2) (i : Nat) : (s.feed bs).byteAt i = s.byteAt i := by
  induction bs generalizing s with
  | nil => rfl
  | cons b bs ih =>
    rw [List.length_cons] at hlen
    have hkeep := h.pushByte_byteAt (by omega) b
    have hstands : (s.pushByte b).HeaderStands := ⟨(hkeep 0).trans h.1, (hkeep 1).trans h.2⟩
    have hcursor : (s.pushByte b).idx.toNat + bs.length ≤ 2 := by
      obtain hup | hidle := hinv.pushByte_idx b
      · omega
      · have hzero : (s.pushByte b).idx.toNat = 0 := congrArg BitVec.toNat hidle
        omega
    rw [State.feed_cons, ih hstands (hinv.pushByte b) hcursor, hkeep i]

theorem State.Inv.headerStands {s : State} (h : s.Inv) (hfc : s.fc = true) : s.HeaderStands := by
  obtain ⟨-, h0, h1, -⟩ := h.frame hfc
  exact ⟨h0, h1⟩

/-! ## A stray header byte (R85, R141) -/

/-- The second `0x55` is dropped, not taken as the first byte of a header. -/
theorem State.feed_doubleHeaderByte {s : State} (hs : s.idx = 0) :
    (s.feed [0x55, 0x55]).idx = 0 ∧ (s.feed [0x55, 0x55]).statuses = s.statuses ++ [.PENDING, .E_HDR1] ∧
      (s.feed [0x55, 0x55]).frameOutput = s.frameOutput := by
  have hP : AcceptablePrefix [0x55] := ⟨fun _ => rfl, by simp, by simp⟩
  have hcursor := (State.feed_acceptablePrefix hs hP).1.cursor
  obtain ⟨hidx, -, hstatuses, hout⟩ :=
    State.feed_rejected (b := 0x55) hs hP (.inr (.inl ⟨rfl, hcursor, by decide⟩))
  exact ⟨hidx, hstatuses.trans (List.append_assoc _ _ _), hout⟩

end Sys2Proof.Machine

namespace Sys2Proof.Certificates

open Sys2Proof.Machine

/-! ## Family 70: RESET and hazards -/

/-- Settles O1: RESET is a write of four registers, and `rst = 1` makes it the one action of its edge. -/
theorem resetClearsAllButTheBuffer : Obligations.ResetClearsAllButTheBuffer := by
  refine ⟨exec_reset, fun s p rest h hrst => ?_⟩
  rw [step_edge h, actionsOf_reset hrst, runInstrs_single]

/-- Settles O56: the two `0x55` leave the block idle, and there `0xAA` starts no frame. -/
theorem strayHeaderByteLosesTheHeader : Obligations.StrayHeaderByteLosesTheHeader := by
  intro s hs
  obtain ⟨hidle, hstatuses, hout⟩ := State.feed_doubleHeaderByte hs
  obtain ⟨hidx, hstatusesLast, houtLast⟩ :=
    State.feed_headerless_observed (g := [0xAA]) hidle (List.cons_ne_nil _ _) (by decide)
  refine ⟨_, runPushes_eq_feed _ s, hidx, ?_, houtLast.trans hout⟩
  exact hstatusesLast.trans (by rw [hstatuses, List.append_assoc]; rfl)

/-- Settles O58: a delivery leaves the cursor at 0 and the header in the buffer, and two PUSH reach no byte past it. -/
theorem deliveredFrameOutlastsTwoPushes : Obligations.DeliveredFrameOutlastsTwoPushes := by
  intro s bs hinv hfc hlen
  obtain ⟨hidx, -⟩ := hinv.frame hfc
  have hzero : s.idx.toNat = 0 := congrArg BitVec.toNat hidx
  have hcursor : s.idx.toNat + bs.length ≤ 2 := by omega
  exact ⟨s.feed bs, runPushes_eq_feed bs s, fun i _ => (hinv.headerStands hfc).feed_byteAt hinv hcursor i⟩

end Sys2Proof.Certificates
